-- ==== Sys2Proof/Word.lean ====
section
/-!
DEFINITION. The data words of the Bitstream decoder engine: the command word, the entry of the shift
register, the fields of a word event, the two kinds of output event, the commands and the input ports. A type
that holds a sample index takes the index width `IDX_W` as its argument (00_scope.md R8).
-/
namespace Sys2Proof

/-- The command word `IW = {rst, s_end, s_valid, s_ch[2:0]}` (30_encoding.md R48). -/
abbrev CommandWord := BitVec 6

/-- A Bit of the source, `{ value, start_index, end_index }`: an entry of the shift register
(10_state.md R20) and the fields of a bit event (10_state.md R15). -/
structure SerialBit (w : Nat) where
  /-- the sampled serial-data level -/
  value : Bool
  /-- `start_index` -/
  start : BitVec w
  /-- `end_index` -/
  stop : BitVec w
  deriving DecidableEq, Repr, Inhabited

/-- The fields of a word event, one per port of 10_state.md R16. -/
structure WordOut (w : Nat) where
  wordBits : BitVec 13
  wordMant : BitVec 10
  wordExp : BitVec 3
  mantissaF64 : BitVec 64
  exponentF64 : BitVec 64
  voutF64 : BitVec 64
  norm : BitVec 16
  wordStart : BitVec w
  wordEnd : BitVec w
  mantStart : BitVec w
  mantEnd : BitVec w
  expStart : BitVec w
  expEnd : BitVec w
  deriving DecidableEq, Repr, Inhabited

/-- An output event (10_state.md R34): a word event or a bit event. -/
inductive Event (w : Nat) where
  | wordEv (o : WordOut w)
  | bitEv (b : SerialBit w)
  deriving DecidableEq, Repr

/-- The four input commands (30_encoding.md R48, R61), with sample indices of width `w`. Each is one system-clock
cycle long. -/
inductive Command (w : Nat) where
  /-- RESET: start a new session (70_reset_and_hazards.md R119) -/
  | reset
  /-- END: the sample source has terminated (40_edge_sampler.md R69) -/
  | endStream
  /-- SAMPLE: one sample, with serial clock `c`, serial data `d`, load `l` and sample index `i`
  (40_edge_sampler.md R63, 30_encoding.md R50 and R51) -/
  | sample (c d l : Bool) (i : BitVec w)
  /-- IDLE: no sample this cycle (40_edge_sampler.md R62) -/
  | idle
  deriving DecidableEq, Repr

/-- What stands on the input ports in one cycle (10_state.md R14, 30_encoding.md R48), with an index port of
width `w`. -/
inductive PortInput (w : Nat) where
  /-- every input bit is 0 or 1: the command word and the index operand -/
  | levels (iw : CommandWord) (idx : BitVec w)
  /-- some input bit is neither 0 nor 1: X, Z or metastable (60_exceptions.md R110) -/
  | nonBinary
  deriving DecidableEq, Repr

end Sys2Proof
end

