-- ==== Sys2Proof/Config.lean ====
section
/-!
DEFINITION. What is fixed for the block: the constants of 00_scope.md R7, the spec's own defaults of the open
parameters of R8 (log 1), and the free values of 93_implementation_defined.md U10 (log 4).
-/
namespace Sys2Proof

/-- The default of `IDX_W`, the width of a sample index (R8, D3). The machine takes the width as an argument
(`Machine.StateOf`, `Machine.stepAt`); `State`, `Instr`, `exec` and `step` are its instance at this default
(log 1). -/
abbrev Config.idxW : Nat := 64

/-- The default of `CNT_W`, the width of `bits_seen` (R8, D8), an argument of the machine in the same way
(log 1). -/
abbrev Config.cntW : Nat := 32

/-- `WORD_LEN` (R7). -/
@[simp] abbrev Config.wordLen : Nat := 13

/-- `MANT_LEN` (R7): word positions 0 to 9. -/
@[simp] abbrev Config.mantLen : Nat := 10

/-- `EXP_LEN` (R7): word positions 10 to 12. -/
@[simp] abbrev Config.expLen : Nat := 3

/-- `FULL_AT` (R7): a register holding more than this many bits is full. -/
@[simp] abbrev Config.fullAt : Nat := 12

/-- `VIN`, the fixed reference voltage 5.0 (R7, R92). -/
def Config.vin : Rat := 5

/-- `BIAS`, the 2^-10 added to the mantissa (R7, R89). -/
def Config.bias : Rat := mkRat 1 (2 ^ 10)

/-- `VSCALE`, the 2^-10 applied to the mantissa inside `vout` (R7, R93). -/
def Config.vscale : Rat := mkRat 1 (2 ^ 10)

/-- `NORM_SCALE` (R7, R95). -/
def Config.normScale : Rat := 65535

/-- What the bit-event data registers hold while `out_bit_valid = 0` (R28, U10): a free value, drawn anew
at every command. No body: nothing can be proved of it (log 4). -/
opaque Config.freeBitOut (w draw : Nat) : SerialBit w

/-- What the word-event data registers hold while `out_word_valid = 0` (R28, U10): a free value, drawn anew
at every command. No body: nothing can be proved of it (log 4). -/
opaque Config.freeWordOut (w draw : Nat) : WordOut w

end Sys2Proof
end

