-- ==== Sys2Proof/Syntax.lean ====
section
/-!
DEFINITION. The commands of the block at the default index width, one constructor per row of
spec/opcode_table.json.
-/
namespace Sys2Proof

/-- The four input commands (30_encoding.md R48, R61) at the default index width: `Command Config.idxW` under the
name the host knows. -/
inductive Instr where
  /-- RESET: start a new session (70_reset_and_hazards.md R119). -/
  | reset
  /-- END: the sample source has terminated (40_edge_sampler.md R69). -/
  | endStream
  /-- SAMPLE: one sample, with serial clock `c`, serial data `d`, load `l` and sample index `i`
  (40_edge_sampler.md R63, 30_encoding.md R50 and R51). -/
  | sample (c d l : Bool) (i : BitVec Config.idxW)
  /-- IDLE: no sample this cycle (40_edge_sampler.md R62). -/
  | idle
  deriving DecidableEq, Repr

end Sys2Proof
end

