-- ==== Sys2Proof/WellFormed.lean ====
section
/-!
DEFINITION. What the encoding rules demand of the input ports and of a command.
-/
namespace Sys2Proof

/-- Every input bit is 0 or 1 (30_encoding.md R52, 60_exceptions.md R110): the one condition the spec puts on
what the host presents. -/
def PortInput.wellFormed {w : Nat} : PortInput w → Bool
  | .levels _ _ => true
  | .nonBinary => false

/-- No command has an illegal or reserved form (30_encoding.md R52), and the operand types of `Instr` have
exactly the widths of R50 and R51, so every term is well formed. One line per constructor, so that a
command added later must say what it demands. -/
def Instr.wellFormed : Instr → Bool
  | .reset => true
  | .endStream => true
  | .sample _ _ _ _ => true
  | .idle => true

end Sys2Proof
end

