-- ==== Sys2Proof/Decode.lean ====
section
/-!
DEFINITION. The command decoder (30_encoding.md R49), total on everything the input ports can hold, the
opcode map (R61), and after them the encoder.
-/
namespace Sys2Proof

/-- Why the ports hold no command. -/
inductive DecodeError where
  /-- some input bit is neither 0 nor 1 (60_exceptions.md R110) -/
  | nonBinaryLevel
  deriving DecidableEq, Repr

/-- A command at the default width, as the width-generic one. -/
def Instr.command : Instr → Command Config.idxW
  | .reset => .reset
  | .endStream => .endStream
  | .sample c d l i => .sample c d l i
  | .idle => .idle

/-- The width-generic command at the default width, under the host's name. -/
def Instr.ofCommand : Command Config.idxW → Instr
  | .reset => .reset
  | .endStream => .endStream
  | .sample c d l i => .sample c d l i
  | .idle => .idle

/-- The command an `IW` and an index operand stand for, by the priority of 30_encoding.md R49, for every index
width. -/
def decodeCommand {w : Nat} (iw : CommandWord) (idx : BitVec w) : Command w :=
  if iw.getLsbD 5 then .reset
  else if iw.getLsbD 4 then .endStream
  else if iw.getLsbD 3 then .sample (iw.getLsbD 0) (iw.getLsbD 1) (iw.getLsbD 2) idx
  else .idle

/-- The decoder of one cycle's input ports, for every index width. -/
def decodeAt {w : Nat} : PortInput w → Except DecodeError (Command w)
  | .levels iw idx => .ok (decodeCommand iw idx)
  | .nonBinary => .error .nonBinaryLevel

/-- The decoder at the default width. -/
def decode (p : PortInput Config.idxW) : Except DecodeError Instr :=
  match decodeAt p with
  | .ok c => .ok (Instr.ofCommand c)
  | .error e => .error e

/-- A row of the command map of 30_encoding.md R61. -/
structure CommandRow where
  priority : Nat
  mnemonic : String
  matchBits : CommandWord
  mask : CommandWord
  deriving DecidableEq, Repr

/-- `IW & mask = match` (R61). -/
def CommandRow.selects (r : CommandRow) (iw : CommandWord) : Bool :=
  iw &&& r.mask == r.matchBits

/-- The command map of 30_encoding.md R61, in its order. -/
def commandMap : List CommandRow :=
  [ ⟨1, "RESET", 0b100000#6, 0b100000#6⟩,
    ⟨2, "END", 0b010000#6, 0b110000#6⟩,
    ⟨3, "SAMPLE", 0b001000#6, 0b111000#6⟩,
    ⟨4, "IDLE", 0b000000#6, 0b111000#6⟩ ]

/-- A command's name in the command map. -/
def Instr.mnemonic : Instr → String
  | .reset => "RESET"
  | .endStream => "END"
  | .sample _ _ _ _ => "SAMPLE"
  | .idle => "IDLE"

/-- The command word of a command, don't-care bits 0 (30_encoding.md R59 and R61). -/
def commandWord {w : Nat} : Command w → CommandWord
  | .reset => 0b100000#6
  | .endStream => 0b010000#6
  | .sample c d l _ => 0b001#3 ++ BitVec.ofBool l ++ BitVec.ofBool d ++ BitVec.ofBool c
  | .idle => 0b000000#6

/-- The index operand of a command; 0 for a command that does not read it (R51). -/
def commandIndex {w : Nat} : Command w → BitVec w
  | .sample _ _ _ i => i
  | .reset => 0
  | .endStream => 0
  | .idle => 0

/-- What the host puts on the input ports to present a command, for every index width. -/
def encodeAt {w : Nat} (c : Command w) : PortInput w :=
  .levels (commandWord c) (commandIndex c)

/-- The command word of a command at the default width. -/
def encodeWord (i : Instr) : CommandWord := commandWord i.command

/-- The encoder at the default width. -/
def encode (i : Instr) : PortInput Config.idxW := encodeAt i.command

/-- The port values of a command given as the opcode table numbers its bits: `IW` in bits 5 to 0. Bits
above 5 name no port, and the index operand, to which the table gives no bits, is 0 (log 12). -/
def tableInput (nbits w : Nat) : PortInput Config.idxW :=
  .levels (BitVec.ofNat 6 (w % 2 ^ nbits)) 0

/-- The command the decoder reads from table bits `w`. -/
def decodeTableWord (nbits w : Nat) : Option Instr :=
  match decode (tableInput nbits w) with
  | .ok i => some i
  | .error _ => none

end Sys2Proof
end

