-- ==== Sys2Proof/Machine/State.lean ====
section
/-!
DEFINITION. The state of the block (10_state.md R18), the environment's side of the ports, the reasons a
step stops, and the state after reset.
-/
namespace Sys2Proof.Machine

/-- The block raises no exception and records no fault: "The core recognizes no distinct error kinds"
(60_exceptions.md R107), so there is no fault to name. Safe: no step faults. -/
inductive Fault
  deriving DecidableEq, Repr

/-- Why a step has no next state. -/
inductive Refusal where
  /-- Raised by an arm of `exec` that has no meaning yet; no arm raises it now. Safe: the model stops. -/
  | notModelled (mnemonic : String)
  /-- Raised by `step` when an input port holds a level that is not 0 or 1 (60_exceptions.md R110, U3: "a
  model refuses the command"). Safe: the model stops (log 7). -/
  | nonBinaryInput
  /-- Raised by `step` when the host has no command left to present: the run is over
  (70_reset_and_hazards.md R130). Safe: the model stops (log 2). -/
  | noCommand
  deriving DecidableEq, Repr

/-- The state elements of 10_state.md R18, flat, and after them three fields of the model's own: the host's
side of the ports and the counter of free values. The open parameters `IDX_W` and `CNT_W` are its arguments
(00_scope.md R8). -/
structure StateOf (idxW cntW : Nat) where
  /-- `prev_valid`: a sample has been accepted since reset (R19) -/
  prevValid : Bool
  /-- `prev_clk`: channel 0 of the last accepted sample (R19) -/
  prevClk : Bool
  /-- the shift register, head (oldest) first; its length is `sr_len` (R20, R22) -/
  sr : List (SerialBit idxW)
  /-- `last_load`: the load level of the previous rising edge (R24) -/
  lastLoad : Bool
  /-- `bits_seen`: Appends modulo `2^CNT_W` (R26) -/
  bitsSeen : BitVec cntW
  /-- `ended`: the stream has ended (R27) -/
  ended : Bool
  /-- `out_bit_valid` (R28) -/
  outBitValid : Bool
  /-- `out_bit_value`, `out_bit_start`, `out_bit_end` (R15, R28) -/
  outBit : SerialBit idxW
  /-- `out_word_valid` (R28) -/
  outWordValid : Bool
  /-- `out_word_*` and the mantissa and exponent spans (R16, R28) -/
  outWord : WordOut idxW
  /-- the host: what it will present on the input ports, next cycle first (R13, R130; log 2) -/
  inputs : List (PortInput idxW)
  /-- the host: the ordered event list of the run so far (20_memory.md R42, R130; log 3) -/
  events : List (Event idxW)
  /-- which free value the output data registers draw next (U10; log 4) -/
  freeCount : Nat
  deriving DecidableEq, Repr

/-- What the bit-event data registers hold in the state after reset. DESIGN CHOICE: the spec leaves it unspecified
(U10; log 6). -/
def resetBitOut (w : Nat) : SerialBit w :=
  { value := false, start := 0, stop := 0 }

/-- What the word-event data registers hold in the state after reset. DESIGN CHOICE: the spec leaves it unspecified
(U10; log 6). -/
def resetWordOut (w : Nat) : WordOut w :=
  { wordBits := 0, wordMant := 0, wordExp := 0, mantissaF64 := 0, exponentF64 := 0, voutF64 := 0, norm := 0,
    wordStart := 0, wordEnd := 0, mantStart := 0, mantEnd := 0, expStart := 0, expEnd := 0 }

/-- The block after reset (10_state.md R18, 70_reset_and_hazards.md R119 and R120), before the host has
presented anything, for every choice of the widths. -/
def resetAt (idxW cntW : Nat) : StateOf idxW cntW :=
  { prevValid := false
    prevClk := false
    sr := []
    lastLoad := false
    bitsSeen := 0
    ended := false
    outBitValid := false
    outBit := resetBitOut idxW
    outWordValid := false
    outWord := resetWordOut idxW
    inputs := []
    events := []
    freeCount := 0 }

/-- The state at the default widths, under the name the host knows: all of `StateOf`'s fields and no others. -/
structure State extends StateOf Config.idxW Config.cntW where
  deriving DecidableEq, Repr

/-- The block after reset, at the default widths. -/
def State.reset : State :=
  { toStateOf := resetAt Config.idxW Config.cntW }

end Sys2Proof.Machine
end

