-- ==== Sys2Proof/Machine/Operands.lean ====
section
/-!
DEFINITION. The operand forms: the 13-bit window of the shift register, the word's positions, and the fields
assembled from them (30_encoding.md R53 to R57). For every index width `w`.
-/
namespace Sys2Proof.Machine

variable {w : Nat}

/-- The entry a rising edge appends: start and end are both the edge's index (41_shift_register.md R73). -/
def edgeBit (d : Bool) (i : BitVec w) : SerialBit w :=
  { value := d, start := i, stop := i }

/-- The most recent 13 entries of the register, `sr[L-13] .. sr[L-1]` (30_encoding.md R54). -/
def window (sr : List (SerialBit w)) : List (SerialBit w) :=
  sr.drop (sr.length - Config.wordLen)

/-- The entry at position `p` of a word, position 0 first in time (R53). The fallback stands for no entry of
the block: a word is only taken when the register holds at least 13 entries (41_shift_register.md R75; log 14). -/
def entryAt (word : List (SerialBit w)) (p : Nat) : SerialBit w :=
  word.getD p default

/-- `b_p` (R54). -/
def bitAt (word : List (SerialBit w)) (p : Nat) : Bool :=
  (entryAt word p).value

/-- `s_p`, the sample index at position `p`, as a span's start (R54). -/
def startAt (word : List (SerialBit w)) (p : Nat) : BitVec w :=
  (entryAt word p).start

/-- `s_p`, the sample index at position `p`, as a span's end (R54, 10_state.md R23). -/
def stopAt (word : List (SerialBit w)) (p : Nat) : BitVec w :=
  (entryAt word p).stop

/-- `M = sum_{i=0}^{9} b_i * 2^(9 - i)`: position 0 is the most significant bit (R55, 90_conflicts.md C1). -/
def mantField (word : List (SerialBit w)) : Nat :=
  ((List.range Config.mantLen).map fun i =>
    (bitAt word i).toNat * 2 ^ (Config.mantLen - 1 - i)).sum

/-- `E = sum_{j=0}^{2} b_(10+j) * 2^j`: position 10 is the least significant bit (R56). -/
def expField (word : List (SerialBit w)) : Nat :=
  ((List.range Config.expLen).map fun j => (bitAt word (Config.mantLen + j)).toNat * 2 ^ j).sum

/-- `word_bits` as a number: position `p` at bit `p` (R57). -/
def wordValue (word : List (SerialBit w)) : Nat :=
  ((List.range Config.wordLen).map fun p => (bitAt word p).toNat * 2 ^ p).sum

end Sys2Proof.Machine
end

