-- ==== Sys2Proof/Machine/Binary64.lean ====
section
/-!
DEFINITION. The binary64 pattern of an exactly representable number, and the number a pattern stands for
(00_scope.md R12, 20_memory.md R38).
-/
namespace Sys2Proof.Machine

/-- `enc64(x)` (R12): bit 63 the sign, bits 62:52 the exponent biased by 1023, bits 51:0 the fraction.
It is used of numbers binary64 represents as normal numbers or zero, so nothing is rounded (R12, R97); of
any other number its value means nothing (DESIGN CHOICE, log 11). -/
def enc64 (x : Rat) : BitVec 64 :=
  if x.num = 0 then 0
  else
    let a := x.num.natAbs
    let scale : Int := (a.log2 : Int) - (x.den.log2 : Int)
    BitVec.ofBool (decide (x.num < 0)) ++ BitVec.ofInt 11 (scale + 1023)
      ++ BitVec.ofNat 52 (a * 2 ^ 52 / 2 ^ a.log2)

/-- The number a binary64 pattern stands for; none for an infinity or a NaN (R12, R38). -/
def value64 (b : BitVec 64) : Option Rat :=
  let sign : Int := if b.getLsbD 63 then -1 else 1
  let e := (b.extractLsb' 52 11).toNat
  let f := (b.extractLsb' 0 52).toNat
  if e = 2047 then none
  else if e = 0 then some (mkRat (sign * (f : Int)) (2 ^ 1074))
  else some (mkRat (sign * ((2 ^ 52 + f) * 2 ^ e : Nat)) (2 ^ 1075))

end Sys2Proof.Machine
end

