-- ==== Sys2Proof/Machine/WordDecoder.lean ====
section
/-!
DEFINITION. The Word Decoder: field split and floating-point reconstruction (42_word_decoder.md R87 to R106),
a pure function of one word, in exact arithmetic (R97; DEDUCED, log 15). For every index width `w`.
-/
namespace Sys2Proof.Machine

variable {w : Nat}

/-- `2^-k` (00_scope.md R10). -/
def twoPowNeg (k : Nat) : Rat := mkRat 1 (2 ^ k)

/-- A bit as the number 0 or 1. -/
def bitRat (b : Bool) : Rat := if b then 1 else 0

/-- `mantissa = -1 + sum_{i=0}^{9} b_i * 2^-i + 2^-10` (R89). The bias is added unconditionally. -/
def mantissa (word : List (SerialBit w)) : Rat :=
  -1 + ((List.range Config.mantLen).map fun i => bitRat (bitAt word i) * twoPowNeg i).sum + Config.bias

/-- `vout = vin/2 + (vin/4) * (mantissa * 2^-10) * 2^-exponent` (R93). -/
def vout (m : Rat) (e : Nat) : Rat :=
  Config.vin / 2 + Config.vin / 4 * (m * Config.vscale) * twoPowNeg e

/-- Rounding toward zero (00_scope.md R10). -/
def trunc (x : Rat) : Int := x.num.tdiv (x.den : Int)

/-- `normalized_16bit = trunc(((vout - vin/4) / (vin/2)) * 65535)` (R95; truncation by 90_conflicts.md C3). -/
def normalized (v : Rat) : Int :=
  trunc ((v - Config.vin / 4) / (Config.vin / 2) * Config.normScale)

/-- Decode (R87): the word event of a word of 13 entries, with the spans of R99 to R102. -/
def decodeSerial (word : List (SerialBit w)) : WordOut w :=
  { wordBits := BitVec.ofNat 13 (wordValue word)
    wordMant := BitVec.ofNat 10 (mantField word)
    wordExp := BitVec.ofNat 3 (expField word)
    mantissaF64 := enc64 (mantissa word)
    exponentF64 := enc64 (expField word : Rat)
    voutF64 := enc64 (vout (mantissa word) (expField word))
    norm := BitVec.ofInt 16 (normalized (vout (mantissa word) (expField word)))
    wordStart := startAt word 0
    wordEnd := stopAt word 12
    mantStart := startAt word 0
    mantEnd := stopAt word 9
    expStart := startAt word 10
    expEnd := stopAt word 12 }

end Sys2Proof.Machine
end

