-- ==== Sys2Proof/Machine/Flags.lean ====
section
/-!
DEFINITION. The conditions the stages test, the phase, and the status ports.
-/
namespace Sys2Proof.Machine

variable {w : Nat}

/-- Rising edge of the serial clock (40_edge_sampler.md R64): a previous sample exists, its clock level was 0,
and this sample's is 1. The first sample of a session is none (R65). -/
def risingEdge (prevValid prevClk c : Bool) : Bool :=
  prevValid && !prevClk && c

/-- The full gate (41_shift_register.md R75), tested after the append (90_conflicts.md C6). -/
def fullGate (sr : List (SerialBit w)) : Bool :=
  decide (sr.length > Config.fullAt)

/-- Load falling edge (41_shift_register.md R76): 1 at the previous rising edge, 0 at this one. -/
def loadFalls (lastLoad l : Bool) : Bool :=
  lastLoad && !l

/-- The phase of 10_state.md R25. -/
inductive Phase where
  | filling
  | full
  deriving DecidableEq, Repr

/-- The phase is a function of `sr_len` (10_state.md R25). -/
def phase {iw cw : Nat} (s : StateOf iw cw) : Phase :=
  if s.sr.length ≥ Config.wordLen then .full else .filling

/-- Status port `st_len` (10_state.md R17). -/
def stLen {iw cw : Nat} (s : StateOf iw cw) : BitVec 4 := BitVec.ofNat 4 s.sr.length

/-- Status port `st_full` (10_state.md R17). -/
def stFull {iw cw : Nat} (s : StateOf iw cw) : Bool := phase s == .full

/-- Status port `st_ended` (10_state.md R17). -/
def stEnded {iw cw : Nat} (s : StateOf iw cw) : Bool := s.ended

/-- Status port `st_bits_seen`, `CNT_W` bits wide (10_state.md R17). -/
def stBitsSeen {iw cw : Nat} (s : StateOf iw cw) : BitVec cw := s.bitsSeen

end Sys2Proof.Machine
end

