-- ==== Sys2Proof/Machine/ShiftRegister.lean ====
section
/-!
DEFINITION. The shift register's Append (41_shift_register.md R72), cut into what it emits, what it leaves in
the register and what it counts. For every index width `w`.
-/
namespace Sys2Proof.Machine

variable {w : Nat}

/-- Eviction (R80): with more than 13 bits held, the head goes. `sr` is the register after the append. -/
def evict (sr : List (SerialBit w)) : List (SerialBit w) :=
  if sr.length > Config.wordLen then sr.tail else sr

/-- What an Append of data `d` at index `i` leaves in the register (R73, R80). Eviction stands inside the full
gate in R72; it is only ever open when more than 12 bits are held, so the gate adds nothing to it. -/
def appendRegister (sr : List (SerialBit w)) (d : Bool) (i : BitVec w) : List (SerialBit w) :=
  evict (sr ++ [edgeBit d i])

/-- What an Append emits (R72, R75 to R79): nothing while the gate is closed; else the word event of the most
recent 13 bits if the load level has fallen, and then the bit event of the newest bit. -/
def appendEvents (sr : List (SerialBit w)) (lastLoad d l : Bool) (i : BitVec w) : List (Event w) :=
  if fullGate (sr ++ [edgeBit d i]) then
    (if loadFalls lastLoad l then [.wordEv (decodeSerial (window (sr ++ [edgeBit d i])))] else [])
      ++ [.bitEv (edgeBit d i)]
  else []

/-- One more appended bit, modulo `2^CNT_W` (R74), for every counter width. -/
def countBit {cw : Nat} (n : BitVec cw) : BitVec cw := n + 1

end Sys2Proof.Machine
end

