-- ==== Sys2Proof/Machine/Ops.lean ====
section
/-!
DEFINITION. The named operations over the state, for every choice of the widths: taking the host's next command,
writing the sampler, the shift register and `ended`, clearing a session, and ending a step by latching its events
in the output registers. The block raises no exception (60_exceptions.md R107, R113), so there is no operation
that takes one and none that returns from one.
-/
namespace Sys2Proof.Machine

variable {iw cw : Nat}

/-- The command the host presents in this cycle, decoded, and the state with that command taken (10_state.md
R13, 30_encoding.md R49); or why there is none. -/
def fetchAt (s : StateOf iw cw) : Except Refusal (Command iw × StateOf iw cw) :=
  match s.inputs with
  | [] => .error .noCommand
  | p :: rest =>
    match decodeAt p with
    | .ok c => .ok (c, { s with inputs := rest })
    | .error .nonBinaryLevel => .error .nonBinaryInput

/-- `fetchAt` at the default widths. -/
def fetch (s : State) : Except Refusal (Instr × State) :=
  match fetchAt s.toStateOf with
  | .ok (c, t) => .ok (Instr.ofCommand c, { toStateOf := t })
  | .error r => .error r

/-- The state with `p` presented before everything else the host will present. -/
def StateOf.present (s : StateOf iw cw) (p : PortInput iw) : StateOf iw cw :=
  { s with inputs := p :: s.inputs }

/-- Every accepted SAMPLE records its clock level (10_state.md R19, 40_edge_sampler.md R63). -/
def StateOf.recordClock (s : StateOf iw cw) (c : Bool) : StateOf iw cw :=
  { s with prevValid := true, prevClk := c }

/-- The state an Append of `d`, `l`, `i` writes: `sr`, `bits_seen`, `last_load` (41_shift_register.md R72). -/
def StateOf.appendBit (s : StateOf iw cw) (d l : Bool) (i : BitVec iw) : StateOf iw cw :=
  { s with sr := appendRegister s.sr d i, bitsSeen := countBit s.bitsSeen, lastLoad := l }

/-- END's write (40_edge_sampler.md R69). -/
def StateOf.setEnded (s : StateOf iw cw) : StateOf iw cw :=
  { s with ended := true }

/-- RESET's writes to the elements of 10_state.md R18 other than the output registers
(70_reset_and_hazards.md R119). -/
def StateOf.clearSession (s : StateOf iw cw) : StateOf iw cw :=
  { s with
    sr := (resetAt iw cw).sr
    prevValid := (resetAt iw cw).prevValid
    prevClk := (resetAt iw cw).prevClk
    lastLoad := (resetAt iw cw).lastLoad
    bitsSeen := (resetAt iw cw).bitsSeen
    ended := (resetAt iw cw).ended }

/-- The bit event in a step's events, if any. -/
def bitEventOf {w : Nat} : List (Event w) → Option (SerialBit w)
  | [] => none
  | .bitEv b :: _ => some b
  | .wordEv _ :: es => bitEventOf es

/-- The word event in a step's events, if any. -/
def wordEventOf {w : Nat} : List (Event w) → Option (WordOut w)
  | [] => none
  | .wordEv o :: _ => some o
  | .bitEv _ :: es => wordEventOf es

/-- The end of a step with events `evs` (10_state.md R28): each valid bit says whether its kind of event is
there, each group's data registers hold that event's fields, or a free value where there is none (U10;
log 4); and the run's event list grows by `evs` in their order (20_memory.md R42). -/
def StateOf.latch (s : StateOf iw cw) (evs : List (Event iw)) : StateOf iw cw :=
  { s with
    outBitValid := (bitEventOf evs).isSome
    outBit := (bitEventOf evs).getD (Config.freeBitOut iw s.freeCount)
    outWordValid := (wordEventOf evs).isSome
    outWord := (wordEventOf evs).getD (Config.freeWordOut iw s.freeCount)
    events := s.events ++ evs
    freeCount := s.freeCount + 1 }

end Sys2Proof.Machine
end

