-- ==== Sys2Proof/Machine/EdgeSampler.lean ====
section
/-!
DEFINITION. The stream commands IDLE, SAMPLE and END (40_edge_sampler.md), each for every choice of the widths and
then at the default widths.
-/
namespace Sys2Proof.Machine

variable {iw cw : Nat}

/-- IDLE (R62): no state of 10_state.md R34 changes and nothing is emitted; the output registers drop what they
presented, as at the end of every step (10_state.md R28; DEDUCED, log 13). -/
def idleAt (s : StateOf iw cw) : StateOf iw cw :=
  s.latch []

/-- SAMPLE (R63): ignored after END (R70); else the clock level is recorded, and on a rising edge (R64) the
same sample's data, load and index (R66) are appended. -/
def sampleAt (c d l : Bool) (i : BitVec iw) (s : StateOf iw cw) : StateOf iw cw :=
  if s.ended then s.latch []
  else if risingEdge s.prevValid s.prevClk c then
    ((s.recordClock c).appendBit d l i).latch (appendEvents s.sr s.lastLoad d l i)
  else (s.recordClock c).latch []

/-- END (R69): the stream has ended; nothing is emitted (R71). END after END changes nothing (R70), which
setting the flag again does not either. -/
def endStreamAt (s : StateOf iw cw) : StateOf iw cw :=
  s.setEnded.latch []

/-- IDLE at the default widths. -/
def execIdle (s : State) : Host.Outcome State Fault Refusal :=
  .next { toStateOf := idleAt s.toStateOf }

/-- SAMPLE at the default widths. -/
def execSample (c d l : Bool) (i : BitVec Config.idxW) (s : State) : Host.Outcome State Fault Refusal :=
  .next { toStateOf := sampleAt c d l i s.toStateOf }

/-- END at the default widths. -/
def execEndStream (s : State) : Host.Outcome State Fault Refusal :=
  .next { toStateOf := endStreamAt s.toStateOf }

end Sys2Proof.Machine
end

