-- ==== Sys2Proof/Machine/Session.lean ====
section
/-!
DEFINITION. RESET (70_reset_and_hazards.md), for every choice of the widths and then at the default widths.
-/
namespace Sys2Proof.Machine

variable {iw cw : Nat}

/-- RESET (R119): a new session, whether or not the last one had ended; the bits held are discarded and
nothing is emitted (R121). The data registers of the outputs are unspecified after it (U10; log 4). -/
def resetCommandAt (s : StateOf iw cw) : StateOf iw cw :=
  s.clearSession.latch []

/-- RESET at the default widths. -/
def execReset (s : State) : Host.Outcome State Fault Refusal :=
  .next { toStateOf := resetCommandAt s.toStateOf }

end Sys2Proof.Machine
end

