-- ==== Sys2Proof/Machine/AnyWidth.lean ====
section
/-!
DEFINITION. The whole machine with the open parameters `IDX_W` and `CNT_W` as its arguments (00_scope.md R8).
`exec`, `step` and `core` are its instance at the spec's default widths.
-/
namespace Sys2Proof.Machine

variable {iw cw : Nat}

/-- The effect of a command on the state (10_state.md R13). A step is total (60_exceptions.md R107). -/
def commandAt (c : Command iw) (s : StateOf iw cw) : StateOf iw cw :=
  match c with
  | .reset => resetCommandAt s
  | .endStream => endStreamAt s
  | .sample k d l i => sampleAt k d l i s
  | .idle => idleAt s

/-- One step (10_state.md R13): take the command the host presents and run it. -/
def stepAt (s : StateOf iw cw) : Host.Outcome (StateOf iw cw) Fault Refusal :=
  match fetchAt s with
  | .ok (c, t) => .next (commandAt c t)
  | .error r => .refused r

/-- The machine with index width `iw` and counter width `cw`. -/
def coreAt (iw cw : Nat) : Host.Core :=
  { State := StateOf iw cw, Fault := Fault, Refusal := Refusal, step := stepAt, reset := resetAt iw cw }

end Sys2Proof.Machine
end

