-- ==== Sys2Proof/Machine/Dispatch.lean ====
section
/-!
DEFINITION. Which meaning each command has.
-/
namespace Sys2Proof.Machine

/-- The effect of a command on the state (10_state.md R13). -/
def exec (i : Instr) (s : State) : Host.Outcome State Fault Refusal :=
  match i with
  | .reset => Sys2Proof.Machine.execReset s
  | .endStream => Sys2Proof.Machine.execEndStream s
  | .sample c d l x => Sys2Proof.Machine.execSample c d l x s
  | .idle => Sys2Proof.Machine.execIdle s

end Sys2Proof.Machine
end

