-- ==== Sys2Proof/Machine/Step.lean ====
section
/-!
DEFINITION. One system-clock cycle.
-/
namespace Sys2Proof.Machine

/-- One step (10_state.md R13): take the command the host presents and run it. -/
def step (s : State) : Host.Outcome State Fault Refusal :=
  match fetch s with
  | .ok (i, t) => exec i t
  | .error r => .refused r

/-- `s` with the command of the table bits `w` presented in the next cycle (log 12). -/
def State.withFetchWord (s : State) (nbits w : Nat) : State :=
  { toStateOf := s.toStateOf.present (tableInput nbits w) }

end Sys2Proof.Machine
end

