-- ==== Sys2Proof/Safety.lean ====
section
/-!
DEFINITION. The terms claims are made in: a step that emits nothing, the invariant of the states between
steps, the abstract model of 10_state.md R34, what a whole session must leave and emit according to its rising edges
(41_shift_register.md R84 and R85), the sending of a word (30_encoding.md R60), and when two machines of different
widths are in the same state (00_scope.md R8).
-/
namespace Sys2Proof.Machine

variable {w w' : Nat}

/-- The step from `s` to `t` emitted nothing: both valid bits are 0 (10_state.md R28) and the run's event list,
which `State.events` records (log 3), has not grown. -/
def Quiet (s t : State) : Prop :=
  t.outBitValid = false ∧ t.outWordValid = false ∧ t.events = s.events

/-- The elements of 10_state.md R18 other than the output registers are the same in `s` and `t`. -/
def SameCore (s t : State) : Prop :=
  t.prevValid = s.prevValid ∧ t.prevClk = s.prevClk ∧ t.sr = s.sr ∧ t.lastLoad = s.lastLoad ∧
    t.bitsSeen = s.bitsSeen ∧ t.ended = s.ended

/-- The sample index at which an event is emitted: the end of its span (20_memory.md R43). -/
def emittedAt : Event w → BitVec w
  | .wordEv o => o.wordEnd
  | .bitEv b => b.stop

/-- Every word event of an event list is followed at once by the bit event of the same rising edge, and every
bit event is a point event (20_memory.md R42 and R43, 41_shift_register.md R72 and R73). -/
def pairedEvents : List (Event w) → Bool
  | [] => true
  | .bitEv b :: es => (b.start == b.stop) && pairedEvents es
  | .wordEv _ :: [] => false
  | .wordEv _ :: .wordEv _ :: _ => false
  | .wordEv o :: .bitEv b :: es => (o.wordEnd == b.stop) && (b.start == b.stop) && pairedEvents es

/-- What holds between steps in every state a run from reset reaches. -/
structure State.Inv (s : State) : Prop where
  /-- `0 <= sr_len <= 13` (R21) -/
  length_le : s.sr.length ≤ 13
  /-- every entry is a point event (R23) -/
  points : ∀ b ∈ s.sr, b.start = b.stop
  /-- while the register fills, `bits_seen` counts its entries (R21, R74) -/
  counted : s.sr.length < 13 → s.bitsSeen.toNat = s.sr.length
  /-- before the first sample of a session nothing has happened in it (R18, R19) -/
  fresh : s.prevValid = false → s.prevClk = false ∧ s.sr = [] ∧ s.lastLoad = false
  /-- a presented bit event is the newest bit of a full register, at an edge of a running session -/
  bitShown : s.outBitValid = true →
    s.sr.length = 13 ∧ s.sr.getLast? = some s.outBit ∧ s.prevClk = true ∧ s.ended = false
  /-- a presented word event comes with a bit event and is the word the register now holds (R72, R77, R86) -/
  wordShown : s.outWordValid = true →
    s.outBitValid = true ∧ s.lastLoad = false ∧ s.outWord = decodeSerial s.sr
  /-- the event list so far is in the order of R42 -/
  paired : pairedEvents s.events = true

/-- The abstract state of 10_state.md R34. -/
structure Abs where
  /-- `none` before the first sample of the session, else the last sample's clock level -/
  hist : Option Bool
  sr : List (SerialBit Config.idxW)
  lastLoad : Bool
  bitsSeen : BitVec Config.cntW
  ended : Bool
  deriving DecidableEq, Repr

/-- The abstract state of a state: the output registers are dropped, and `prev_clk` is when `prev_valid = 0`
(R34). -/
def absOf (s : State) : Abs :=
  { hist := if s.prevValid then some s.prevClk else none
    sr := s.sr
    lastLoad := s.lastLoad
    bitsSeen := s.bitsSeen
    ended := s.ended }

/-- Append on the abstract state, in the order of 41_shift_register.md R72's pseudocode. -/
def Abs.append (a : Abs) (d l : Bool) (i : BitVec Config.idxW) : Abs × List (Event Config.idxW) :=
  let newest : SerialBit Config.idxW := { value := d, start := i, stop := i }
  let held := a.sr ++ [newest]
  let a' : Abs := { a with bitsSeen := a.bitsSeen + 1, lastLoad := l }
  if held.length > 12 then
    let word : List (Event Config.idxW) :=
      if a.lastLoad = true ∧ l = false then [.wordEv (decodeSerial (held.drop (held.length - 13)))] else []
    ({ a' with sr := if held.length > 13 then held.drop 1 else held }, word ++ [.bitEv newest])
  else ({ a' with sr := held }, [])

/-- The abstract step of 10_state.md R34. -/
def Abs.step (a : Abs) : Instr → Abs × List (Event Config.idxW)
  | .reset => ({ hist := none, sr := [], lastLoad := false, bitsSeen := 0, ended := false }, [])
  | .endStream => ({ a with ended := true }, [])
  | .idle => (a, [])
  | .sample c d l i =>
    if a.ended then (a, [])
    else if a.hist = some false ∧ c = true then { a with hist := some c }.append d l i
    else ({ a with hist := some c }, [])

/-- One sample of the stream (00_scope.md section 5). -/
structure Sample (w : Nat) where
  clock : Bool
  data : Bool
  load : Bool
  index : BitVec w
  deriving DecidableEq, Repr

/-- The samples a session accepts from its commands: all SAMPLEs before the first END (40_edge_sampler.md R62,
R70). A RESET starts another session. -/
def accepted : List Instr → List (Sample Config.idxW)
  | [] => []
  | .sample c d l i :: cs => { clock := c, data := d, load := l, index := i } :: accepted cs
  | .idle :: cs => accepted cs
  | .endStream :: _ => []
  | .reset :: _ => []

/-- The rising edges in a stream of samples, given the clock level before it, if any (40_edge_sampler.md R64,
R65). -/
def edges (before : Option Bool) : List (Sample w) → List (Sample w)
  | [] => []
  | x :: xs =>
    if before = some false ∧ x.clock = true then x :: edges (some x.clock) xs
    else edges (some x.clock) xs

/-- The bit a rising edge captures (41_shift_register.md R73). -/
def Sample.bit (x : Sample w) : SerialBit w :=
  { value := x.data, start := x.index, stop := x.index }

/-- What the edge after `k` earlier ones emits, given all edges of the session (41_shift_register.md R82, R85):
nothing at the first 12; then the word of this edge and the 12 before it if the load level has fallen since the
previous edge, and the bit event of this edge. -/
def edgeEvents (es : List (Sample w)) (k : Nat) : List (Event w) :=
  match es[k - 1]?, es[k]? with
  | some previous, some this =>
    if k < 12 then []
    else
      (if previous.load = true ∧ this.load = false then
        [.wordEv (decodeSerial (((es.map Sample.bit).drop (k - 12)).take 13))] else [])
        ++ [.bitEv this.bit]
  | _, _ => []

/-- What a session with the given rising edges emits, in order (R42, R85). -/
def sessionEvents (es : List (Sample w)) : List (Event w) :=
  (List.range es.length).flatMap (edgeEvents es)

/-- An entry with its indices renamed. -/
def relabelBit (f : BitVec w → BitVec w') (b : SerialBit w) : SerialBit w' :=
  { value := b.value, start := f b.start, stop := f b.stop }

/-- A word event with its indices renamed. -/
def relabelWord (f : BitVec w → BitVec w') (o : WordOut w) : WordOut w' :=
  { wordBits := o.wordBits, wordMant := o.wordMant, wordExp := o.wordExp
    mantissaF64 := o.mantissaF64, exponentF64 := o.exponentF64, voutF64 := o.voutF64, norm := o.norm
    wordStart := f o.wordStart, wordEnd := f o.wordEnd, mantStart := f o.mantStart, mantEnd := f o.mantEnd
    expStart := f o.expStart, expEnd := f o.expEnd }

/-- An event with its indices renamed. -/
def relabelEvent (f : BitVec w → BitVec w') : Event w → Event w'
  | .wordEv o => .wordEv (relabelWord f o)
  | .bitEv b => .bitEv (relabelBit f b)

/-- `BIT d l @i` (30_encoding.md R60): the clock goes low and then high, with data `d` and load `l`. -/
def bitCommands (d l : Bool) (i : BitVec Config.idxW) : List Instr :=
  [.sample false d l i, .sample true d l (i + 1)]

/-- `WORD b_0 ... b_12 @i` (R60): one BIT per level, two indices apart, the load level 1 but at the last. -/
def wordCommands (levels : List Bool) (i : BitVec Config.idxW) : List Instr :=
  levels.zipIdx.flatMap fun (d, p) => bitCommands d (p ≠ 12) (i + BitVec.ofNat Config.idxW (2 * p))

/-- The word those levels make: position `p` captured at index `i + 2p + 1` (R60). -/
def sentWord (levels : List Bool) (i : BitVec Config.idxW) : List (SerialBit Config.idxW) :=
  levels.zipIdx.map fun (d, p) => edgeBit d (i + BitVec.ofNat Config.idxW (2 * p + 1))

/-- The index operand of a SAMPLE (30_encoding.md R51). -/
def sampleIndex : Instr → Option Nat
  | .sample _ _ _ i => some i.toNat
  | .reset => none
  | .endStream => none
  | .idle => none

/-- A command with its index renamed. -/
def relabelCommand (f : BitVec w → BitVec w') : Command w → Command w'
  | .reset => .reset
  | .endStream => .endStream
  | .sample c d l i => .sample c d l (f i)
  | .idle => .idle

/-- `s'`, of other widths, is `s` with every sample index renamed by `f` and `bits_seen` cut to the narrower
counter. Nothing is said of a data register whose valid bit is 0 (U10), nor of what the host has still to
present. -/
structure Renamed {cw cw' : Nat} (f : BitVec w → BitVec w') (s : StateOf w cw) (s' : StateOf w' cw') : Prop where
  prevValid : s'.prevValid = s.prevValid
  prevClk : s'.prevClk = s.prevClk
  sr : s'.sr = s.sr.map (relabelBit f)
  lastLoad : s'.lastLoad = s.lastLoad
  bitsSeen : s'.bitsSeen.toNat = s.bitsSeen.toNat % 2 ^ cw'
  ended : s'.ended = s.ended
  outBitValid : s'.outBitValid = s.outBitValid
  outBit : s.outBitValid = true → s'.outBit = relabelBit f s.outBit
  outWordValid : s'.outWordValid = s.outWordValid
  outWord : s.outWordValid = true → s'.outWord = relabelWord f s.outWord
  events : s'.events = s.events.map (relabelEvent f)

/-- `s` with the host about to present exactly the commands `cs`. -/
def State.presenting (s : State) (cs : List Instr) : State :=
  { s with inputs := cs.map encode }

end Sys2Proof.Machine
end

