-- ==== Sys2Proof/Certificates/Slice0/Obligations.lean ====
section
/-!
DEFINITION. The statements about the Bitstream decoder engine, for the provers. Each holds for every state,
whether or not a run reaches it, unless it names the invariant `State.Inv` as a premise.
-/
open Sys2Proof Sys2Proof.Machine

/-! ### Encoding -/

/-- Decoding the encoding of any command gives it back, every operand at every value (30_encoding.md R48 to
R51, R61), and so at every other index width (00_scope.md R8). -/
def Obligations.DecodeEncodeRoundTrip : Prop :=
  (∀ i : Instr, i.wellFormed = true → (encode i).wellFormed = true ∧ decode (encode i) = .ok i) ∧
  (∀ (w : Nat) (c : Command w), decodeAt (encodeAt c) = .ok c)

/-- The other direction: what the ports decode to encodes to the same ports in every bit the command's row
fixes, and a SAMPLE to exactly the same ports, index included. -/
def Obligations.EncodeDecodeAgreesOnReadBits : Prop :=
  ∀ (iw : CommandWord) (idx : BitVec Config.idxW) (i : Instr), decode (.levels iw idx) = .ok i →
    (∀ r ∈ commandMap, r.mnemonic = i.mnemonic → encodeWord i &&& r.mask = iw &&& r.mask) ∧
    (∀ c d l x, i = .sample c d l x → encode i = .levels iw idx)

/-- Every command word is selected by exactly one row of the command map, and the decoder gives that row's
command (30_encoding.md R61); the operands are the row's fields (R50, R51). -/
def Obligations.CommandMapSelectsDecodedCommand : Prop :=
  ∀ (iw : CommandWord) (idx : BitVec Config.idxW),
    ∃ r ∈ commandMap, iw &&& r.mask = r.matchBits ∧
      (∀ r' ∈ commandMap, iw &&& r'.mask = r'.matchBits → r' = r) ∧
      ∃ i, decode (.levels iw idx) = .ok i ∧ i.mnemonic = r.mnemonic ∧
        (i.mnemonic = "SAMPLE" → i = .sample (iw.getLsbD 0) (iw.getLsbD 1) (iw.getLsbD 2) idx)

/-- 30_encoding.md R52: no command word is illegal; the bits a command does not read do not matter; a level that
is not 0 or 1 is refused. -/
def Obligations.NoIllegalCommandWordAndDontCareBits : Prop :=
  (∀ iw idx, ∃ i, decode (.levels iw idx) = .ok i) ∧
  (∀ iw idx, iw.getLsbD 5 = true → decode (.levels iw idx) = .ok .reset) ∧
  (∀ iw idx, iw.getLsbD 5 = false → iw.getLsbD 4 = true → decode (.levels iw idx) = .ok .endStream) ∧
  (∀ iw idx, iw.getLsbD 5 = false → iw.getLsbD 4 = false → iw.getLsbD 3 = false →
    decode (.levels iw idx) = .ok .idle) ∧
  (∀ (s : State) rest, s.inputs = .nonBinary :: rest → step s = .refused .nonBinaryInput)

/-- The nine command words of 95_test_vectors.md section 2.1, written out. -/
def Obligations.WrittenCommandWordsDecode : Prop :=
  decode (.levels 0b100000#6 0) = .ok .reset ∧
  decode (.levels 0b111111#6 0) = .ok .reset ∧
  decode (.levels 0b010000#6 0) = .ok .endStream ∧
  decode (.levels 0b011111#6 7) = .ok .endStream ∧
  decode (.levels 0b001000#6 5) = .ok (.sample false false false 5) ∧
  decode (.levels 0b001101#6 5) = .ok (.sample true false true 5) ∧
  decode (.levels 0b001110#6 5) = .ok (.sample false true true 5) ∧
  decode (.levels 0b000111#6 9) = .ok .idle ∧
  decode (.levels 0b000000#6 0) = .ok .idle

/-! ### The step -/

/-- A step runs the command the ports decode to, on the state with that command taken; with no command left it
stops by name. That the host's commands stand in a list of the state, and that an empty list stops the model, is
the model's choice (log 2). -/
def Obligations.StepRunsTheDecodedCommand : Prop :=
  (∀ (s : State) p rest i, s.inputs = p :: rest → decode p = .ok i → i.wellFormed = true →
    step s = exec i { s with inputs := rest }) ∧
  (∀ s : State, s.inputs = [] → step s = .refused .noCommand)

/-- 60_exceptions.md R110: ports with a level that is not 0 or 1 are no step of the block. -/
def Obligations.NonBinaryInputIsRefused : Prop :=
  ∀ (s : State) rest, s.inputs = .nonBinary :: rest → step s = .refused .nonBinaryInput

/-- 60_exceptions.md R107: every command in every state has a result, a next state; no step of any state faults. -/
def Obligations.EveryCommandCompletes : Prop :=
  (∀ (i : Instr) (s : State), ∃ t, exec i s = .next t) ∧ (∀ (s : State) (f : Fault), step s ≠ .fault f)

/-- No command touches what the host has still to present. That this stands in a list of the state is the model's
choice (log 2). -/
def Obligations.CommandsLeaveTheHostsInputs : Prop :=
  ∀ (i : Instr) (s : State), ∃ t, exec i s = .next t ∧ t.inputs = s.inputs

/-- The output registers after any command (10_state.md R28): the step adds zero, one or two events to the run's
list, a word event never without a bit event after it; each valid bit says whether its event is there, and the
data registers hold it if so. -/
def Obligations.OutputRegistersShowTheStepsEvents : Prop :=
  ∀ (i : Instr) (s : State), ∃ t evs, exec i s = .next t ∧ t.events = s.events ++ evs ∧
    ((evs = [] ∧ t.outBitValid = false ∧ t.outWordValid = false) ∨
     (evs = [.bitEv t.outBit] ∧ t.outBitValid = true ∧ t.outWordValid = false) ∨
     (evs = [.wordEv t.outWord, .bitEv t.outBit] ∧ t.outBitValid = true ∧ t.outWordValid = true))

/-! ### Reset -/

/-- The reset values of 10_state.md R18's table. The data registers of the outputs have none there. -/
def Obligations.ResetStateHoldsTheTablesValues : Prop :=
  State.reset.prevValid = false ∧ State.reset.prevClk = false ∧ State.reset.sr.length = 0 ∧
  State.reset.lastLoad = false ∧ State.reset.bitsSeen = 0 ∧ State.reset.ended = false ∧
  State.reset.outBitValid = false ∧ State.reset.outWordValid = false

/-- 70_reset_and_hazards.md R119: RESET completes in every state and writes every element to its reset value; it
emits nothing. -/
def Obligations.ResetClearsTheSession : Prop :=
  ∀ s : State, ∃ t, exec .reset s = .next t ∧
    t.sr = [] ∧ t.prevValid = false ∧ t.prevClk = false ∧ t.lastLoad = false ∧ t.bitsSeen = 0 ∧
    t.ended = false ∧ Quiet s t

/-- 70_reset_and_hazards.md R124: nothing carries over. From any two states, RESET and the same commands after it
emit the same events and leave the same session state. -/
def Obligations.NothingCarriesOverAReset : Prop :=
  ∀ (s s' : State) (cs : List Instr), ∃ t t' evs,
    core.run (cs.length + 1) (s.presenting (.reset :: cs)) = .next t ∧
    core.run (cs.length + 1) (s'.presenting (.reset :: cs)) = .next t' ∧
    t.events = s.events ++ evs ∧ t'.events = s'.events ++ evs ∧ absOf t = absOf t'

/-- A session ended by RESET behaves as one ended by END followed by RESET (70_reset_and_hazards.md section 1; the
spec marks this rule as its own derivation, "[derived: from rule R119 ...]"). -/
def Obligations.EndBeforeResetChangesNothing : Prop :=
  ∀ s : State, ∃ t u v, exec .reset s = .next t ∧ exec .endStream s = .next u ∧ exec .reset u = .next v ∧
    SameCore t v ∧ Quiet s t ∧ Quiet s v

/-! ### IDLE and END -/

/-- IDLE completes in every state, changes no element of the abstract state and emits nothing (40_edge_sampler.md
section 1, 10_state.md section 3). That the output valid bits are 0 after it is the model's reading of the rule on
the output registers over the rule on IDLE, "The step returns `S' = S` and no events" (DEDUCED, log 13). -/
def Obligations.IdleChangesNothing : Prop :=
  ∀ s : State, ∃ t, exec .idle s = .next t ∧ SameCore s t ∧ Quiet s t

/-- END sets `ended` and keeps everything else; no event; a sample presented in the same cycle is not taken
(40_edge_sampler.md section 1, 10_state.md section 3). That the output valid bits are 0 after an END that finds
`ended = 1` is the model's reading of the rule on the output registers (DEDUCED, log 13). -/
def Obligations.EndSetsEndedOnly : Prop :=
  (∀ s : State, ∃ t, exec .endStream s = .next t ∧ SameCore { s with ended := true } t ∧ Quiet s t) ∧
  (∀ iw idx, iw.getLsbD 5 = false → iw.getLsbD 4 = true → decode (.levels iw idx) = .ok .endStream)

/-- While `ended = 1` every command but RESET is without effect on the abstract state and emits nothing, and RESET
leaves the condition (40_edge_sampler.md section 1, 10_state.md section 3). That the output valid bits are 0 after
such a command is the model's reading of the rule on the output registers over "have no effect on any state"
(DEDUCED, log 13). -/
def Obligations.EndedBlockIgnoresAllButReset : Prop :=
  ∀ s : State, s.ended = true →
    (∀ i, i ≠ .reset → ∃ t, exec i s = .next t ∧ SameCore s t ∧ Quiet s t) ∧
    (∃ t, exec .reset s = .next t ∧ t.ended = false)

/-- END emits nothing, whatever the register holds, and the bits still held go at the next RESET, which emits
nothing either (40_edge_sampler.md section 1, 10_state.md section 3). That the output valid bits are 0 after an END
that finds `ended = 1` is the model's reading of the rule on the output registers (DEDUCED, log 13). -/
def Obligations.NoPartialWordAtEndOfStream : Prop :=
  ∀ s : State, ∃ t u, exec .endStream s = .next t ∧ Quiet s t ∧ t.sr = s.sr ∧
    exec .reset t = .next u ∧ Quiet t u ∧ u.sr = []

/-! ### SAMPLE: edges -/

/-- A SAMPLE of a running session that is no rising edge (40_edge_sampler.md R63, R64) records its clock level and
does nothing else. -/
def Obligations.SampleWithoutEdgeOnlyRecordsTheClock : Prop :=
  ∀ (s : State) (c d l : Bool) (i : BitVec Config.idxW), s.ended = false →
    ¬(s.prevValid = true ∧ s.prevClk = false ∧ c = true) →
    ∃ t, exec (.sample c d l i) s = .next t ∧
      SameCore { s with prevValid := true, prevClk := c } t ∧ Quiet s t

/-- Every rising edge of a running session (40_edge_sampler.md R64, R66; 41_shift_register.md R73, R74, R81) puts
this very sample's data and index at the tail of the register, behind the entries held before (less the head, if 13
were held), counts it modulo `2^CNT_W`, and keeps this sample's load level; nothing else of the session state
changes but the clock level. -/
def Obligations.RisingEdgeCapturesThisSample : Prop :=
  ∀ (s : State) (d l : Bool) (i : BitVec Config.idxW), s.ended = false → s.prevValid = true →
    s.prevClk = false →
    ∃ t, exec (.sample true d l i) s = .next t ∧
      t.sr.getLast? = some { value := d, start := i, stop := i } ∧
      (s.sr.length ≤ 12 → t.sr = s.sr ++ [{ value := d, start := i, stop := i }]) ∧
      (13 ≤ s.sr.length → t.sr = s.sr.tail ++ [{ value := d, start := i, stop := i }]) ∧
      t.bitsSeen.toNat = (s.bitsSeen.toNat + 1) % 2 ^ Config.cntW ∧ t.lastLoad = l ∧
      t.prevValid = true ∧ t.prevClk = true ∧ t.ended = false

/-- 40_edge_sampler.md R65: the first SAMPLE after RESET is no edge, whatever its clock level; if that level is 1,
a second sample with the clock high is none either. -/
def Obligations.FirstSampleIsNeverAnEdge : Prop :=
  ∀ (s : State) (c d l : Bool) (i : BitVec Config.idxW), s.ended = false → s.prevValid = false →
    ∃ t, exec (.sample c d l i) s = .next t ∧
      SameCore { s with prevValid := true, prevClk := c } t ∧ Quiet s t ∧
      (c = true → ∀ (d' l' : Bool) (i' : BitVec Config.idxW),
        ∃ u, exec (.sample true d' l' i') t = .next u ∧ SameCore t u ∧ Quiet t u)

/-- The data and load levels and the index of a sample that is no rising edge leave no trace (40_edge_sampler.md
section 1, 10_state.md section 3): with any others the outcome is the same, all of it. That the output data
registers, which the spec leaves at any value while their valid bit is 0, agree too is the model's choice: their
free value is a function of a counter alone (DESIGN CHOICE, log 4). -/
def Obligations.LevelsBetweenEdgesAreNotSeen : Prop :=
  ∀ (s : State) (c d d' l l' : Bool) (i i' : BitVec Config.idxW),
    ¬(s.prevValid = true ∧ s.prevClk = false ∧ c = true) →
    ∃ t, exec (.sample c d l i) s = .next t ∧ exec (.sample c d' l' i') s = .next t

/-- At most one Append happens per two commands of a session (40_edge_sampler.md section 1; the spec marks this as
its own derivation, "[derived: from rule R64]"). -/
def Obligations.AtMostOneAppendPerTwoCommands : Prop :=
  ∀ (s : State) (i j : Instr), i ≠ .reset → j ≠ .reset →
    ∃ t u, exec i s = .next t ∧ exec j t = .next u ∧
      (u.bitsSeen = s.bitsSeen ∧ u.sr = s.sr ∨ u.bitsSeen = s.bitsSeen + 1)

/-- `prev_clk` is never read while `prev_valid = 0` (10_state.md R18). -/
def Obligations.ClockHistoryUnreadBeforeFirstSample : Prop :=
  ∀ (s : State) (b : Bool) (i : Instr), s.prevValid = false →
    ∃ t t', exec i s = .next t ∧ exec i { s with prevClk := b } = .next t' ∧
      absOf t = absOf t' ∧ t.events = t'.events

/-! ### SAMPLE: Append -/

/-- A rising edge with fewer than 12 bits held before it (41_shift_register.md R73, R75): the bit is appended and
nothing is emitted. -/
def Obligations.FillingEdgeAppendsSilently : Prop :=
  ∀ (s : State) (d l : Bool) (i : BitVec Config.idxW), s.ended = false → s.prevValid = true →
    s.prevClk = false → s.sr.length < 12 →
    ∃ t, exec (.sample true d l i) s = .next t ∧
      SameCore { s with prevClk := true, sr := s.sr ++ [{ value := d, start := i, stop := i }],
                        bitsSeen := s.bitsSeen + 1, lastLoad := l } t ∧ Quiet s t

/-- A rising edge that completes or finds a full register without a load falling edge (41_shift_register.md R76,
R79, R80): one bit event, no word event; with 13 bits held before, the head is evicted. -/
def Obligations.FullEdgeWithoutLoadFallEmitsTheBit : Prop :=
  ∀ (s : State) (d l : Bool) (i : BitVec Config.idxW), s.ended = false → s.prevValid = true →
    s.prevClk = false → 12 ≤ s.sr.length → (s.lastLoad, l) ≠ (true, false) →
    ∃ t, exec (.sample true d l i) s = .next t ∧
      SameCore { s with prevClk := true, bitsSeen := s.bitsSeen + 1, lastLoad := l,
                        sr := (if s.sr.length = 12 then s.sr else s.sr.tail)
                          ++ [{ value := d, start := i, stop := i }] } t ∧
      t.outBitValid = true ∧ t.outBit = { value := d, start := i, stop := i } ∧ t.outWordValid = false ∧
      t.events = s.events ++ [.bitEv { value := d, start := i, stop := i }]

/-- A rising edge that completes or finds a full register, with the load level fallen since the previous edge
(41_shift_register.md R72, R76 to R80): first the word event of the 12 newest old bits and the new one, then the
bit event; the word is taken from the register and leaves it as any edge would. -/
def Obligations.LoadFallAtFullRegisterEmitsTheWord : Prop :=
  ∀ (s : State) (d : Bool) (i : BitVec Config.idxW), s.ended = false → s.prevValid = true →
    s.prevClk = false → 12 ≤ s.sr.length → s.lastLoad = true →
    ∃ t o, exec (.sample true d false i) s = .next t ∧
      o = decodeSerial (s.sr.drop (s.sr.length - 12) ++ [{ value := d, start := i, stop := i }]) ∧
      SameCore { s with prevClk := true, bitsSeen := s.bitsSeen + 1, lastLoad := false,
                        sr := (if s.sr.length = 12 then s.sr else s.sr.tail)
                          ++ [{ value := d, start := i, stop := i }] } t ∧
      t.outWordValid = true ∧ t.outWord = o ∧
      t.outBitValid = true ∧ t.outBit = { value := d, start := i, stop := i } ∧
      t.events = s.events ++ [.wordEv o, .bitEv { value := d, start := i, stop := i }]

/-- 41_shift_register.md R74, for every counter width. -/
def Obligations.BitCounterWrapsAtEveryWidth : Prop :=
  ∀ (cw : Nat) (n : BitVec cw), (countBit n).toNat = (n.toNat + 1) % 2 ^ cw

/-- No command changes an entry of the register: it is kept, emptied, or slides by one with the new bit at its
tail (10_state.md section 3, 41_shift_register.md section 1). -/
def Obligations.RegisterOnlySlides : Prop :=
  ∀ (i : Instr) (s : State), ∃ t, exec i s = .next t ∧
    (t.sr = s.sr ∨ (i = .reset ∧ t.sr = []) ∨
      ∃ b : SerialBit Config.idxW, b.start = b.stop ∧
        (s.sr.length ≤ 12 ∧ t.sr = s.sr ++ [b] ∨ 13 ≤ s.sr.length ∧ t.sr = s.sr.tail ++ [b]))

/-- 41_shift_register.md R83: FILLING becomes FULL only at the edge that appends the 13th bit, and FULL stays
until the next RESET, which gives FILLING; END does not change the phase. -/
def Obligations.FullIsLeftOnlyByReset : Prop :=
  ∀ (i : Instr) (s : State), ∃ t, exec i s = .next t ∧
    (phase s.toStateOf = .full → i ≠ .reset → phase t.toStateOf = .full) ∧
    (phase s.toStateOf = .filling → phase t.toStateOf = .full → s.sr.length = 12 ∧ t.sr.length = 13) ∧
    (i = .reset → phase t.toStateOf = .filling) ∧
    (i = .endStream → phase t.toStateOf = phase s.toStateOf)

/-- After a word event `last_load` is 0, and from a state where it is 0 no command emits a word event; only a
rising edge that captures load 1 sets it again (41_shift_register.md section 2, 10_state.md section 3; the spec marks
the spacing of words as its own derivation). That no word event is emitted is said by the word valid bit after the
command; that this bit is 0 after an IDLE, and after any command but RESET while ended, is the model's reading of the
rule on the output registers (DEDUCED, log 13). -/
def Obligations.NoTwoWordsOnAdjacentEdges : Prop :=
  ∀ (i : Instr) (s : State), ∃ t, exec i s = .next t ∧
    (t.outWordValid = true → t.lastLoad = false) ∧
    (s.lastLoad = false → t.outWordValid = false ∧
      (t.lastLoad = true → ∃ d x, i = .sample true d true x ∧ s.prevValid = true ∧ s.prevClk = false))

/-- Every event of a step is emitted at the index of the edge that step handles (20_memory.md section 4; the spec
marks this reading as its own derivation). -/
def Obligations.EventsEndAtTheEmittingEdge : Prop :=
  ∀ (s : State) (c d l : Bool) (i : BitVec Config.idxW), ∃ t evs, exec (.sample c d l i) s = .next t ∧
    t.events = s.events ++ evs ∧ ∀ e ∈ evs, emittedAt e = i

/-- `bits_seen` is read by nothing but itself (10_state.md section 3): with another count in it, a command gives the
same state but for the count. That the output data registers, which the spec leaves at any value while their valid
bit is 0, agree too is the model's choice: their free value is a function of a counter alone (DESIGN CHOICE,
log 4). -/
def Obligations.DecodingNeverReadsTheBitCounter : Prop :=
  ∀ (i : Instr) (s : State) (n : BitVec Config.cntW), ∃ t t',
    exec i s = .next t ∧ exec i { s with bitsSeen := n } = .next t' ∧
      t' = { t with bitsSeen := t'.bitsSeen }

/-- Indices are copied, never interpreted (10_state.md section 3): renaming every index by any function, even into
another width, commutes with an Append's register and events. -/
def Obligations.IndicesAreOnlyCopied : Prop :=
  ∀ (w w' : Nat) (f : BitVec w → BitVec w') (sr : List (SerialBit w)) (lastLoad d l : Bool) (i : BitVec w),
    appendRegister (sr.map (relabelBit f)) d (f i) = (appendRegister sr d i).map (relabelBit f) ∧
    appendEvents (sr.map (relabelBit f)) lastLoad d l (f i) =
      (appendEvents sr lastLoad d l i).map (relabelEvent f)

/-! ### The word -/

/-- 30_encoding.md R54: the word is the most recent 13 entries of the register, for every index width. -/
def Obligations.WordIsTheMostRecentThirteenBits : Prop :=
  ∀ (w : Nat) (sr : List (SerialBit w)) (p : Nat), 13 ≤ sr.length → p < 13 →
    (window sr).length = 13 ∧
    some (bitAt (window sr) p) = (sr[sr.length - 13 + p]?).map SerialBit.value ∧
    some (startAt (window sr) p) = (sr[sr.length - 13 + p]?).map SerialBit.start ∧
    some (stopAt (window sr) p) = (sr[sr.length - 13 + p]?).map SerialBit.stop

/-- The bits of the word ports (30_encoding.md section 2; the spec marks the port layout and the mantissa field as
its own derivations): position `p` at bit `p` of `word_bits`, position `i` at bit `9 - i` of `word_mant`,
position `10 + j` at bit `j` of `word_exp`. -/
def Obligations.WordPortsCarryTheFields : Prop :=
  ∀ (w : Nat) (word : List (SerialBit w)),
    (∀ p, p < 13 → (decodeSerial word).wordBits.getLsbD p = bitAt word p) ∧
    (∀ i, i < 10 → (decodeSerial word).wordMant.getLsbD (9 - i) = bitAt word i) ∧
    (∀ j, j < 3 → (decodeSerial word).wordExp.getLsbD j = bitAt word (10 + j)) ∧
    (decodeSerial word).wordMant.toNat = mantField word ∧ (decodeSerial word).wordExp.toNat = expField word

/-- The mantissa closed form and range (42_word_decoder.md section 2; the spec marks the closed form as its own
derivation). -/
def Obligations.MantissaClosedForm : Prop :=
  ∀ (w : Nat) (word : List (SerialBit w)),
    mantissa word = (2 * (mantField word : Rat) - 1023) / 1024 ∧ mantField word ≤ 1023 ∧
    mantissa word ≠ 0 ∧ -1023 / 1024 ≤ mantissa word ∧ mantissa word ≤ 1023 / 1024

/-- The output voltage's closed form and range (42_word_decoder.md section 2; the spec marks the closed form as
its own derivation). -/
def Obligations.OutputVoltageClosedForm : Prop :=
  ∀ (w : Nat) (word : List (SerialBit w)),
    vout (mantissa word) (expField word) =
      5 / 2 + 5 * (2 * (mantField word : Rat) - 1023) / (2 ^ (22 + expField word) : Nat) ∧
    expField word ≤ 7 ∧ vout (mantissa word) (expField word) ≠ 5 / 2 ∧
    10480645 / 4194304 ≤ vout (mantissa word) (expField word) ∧
    vout (mantissa word) (expField word) ≤ 10490875 / 4194304

/-- The normalized output's closed form and range (42_word_decoder.md section 2; the spec marks the closed form as
its own derivation). It fits 16 bits without wrap. -/
def Obligations.NormalizedClosedForm : Prop :=
  ∀ (w : Nat) (word : List (SerialBit w)),
    (decodeSerial word).norm.toNat =
      (65535 * (2 ^ (20 + expField word) + 2 * mantField word - 1023)) >>> (21 + expField word) ∧
    normalized (vout (mantissa word) (expField word)) = ((decodeSerial word).norm.toNat : Int) ∧
    32735 ≤ (decodeSerial word).norm.toNat ∧ (decodeSerial word).norm.toNat ≤ 32799

/-- The three binary64 ports carry exactly mantissa, exponent and vout, for every word: no rounding happens
(42_word_decoder.md R98; that every result is exact in binary64 the spec marks as its own derivation). -/
def Obligations.FloatPortsAreExact : Prop :=
  ∀ (w : Nat) (word : List (SerialBit w)),
    value64 (decodeSerial word).mantissaF64 = some (mantissa word) ∧
    value64 (decodeSerial word).exponentF64 = some (expField word : Rat) ∧
    value64 (decodeSerial word).voutF64 = some (vout (mantissa word) (expField word))

/-- The spans of a word event (42_word_decoder.md R99 to R101), as entries of the word. -/
def Obligations.WordEventSpans : Prop :=
  ∀ (w : Nat) (word : List (SerialBit w)) (h : word.length = 13),
    (decodeSerial word).wordStart = word[0].start ∧ (decodeSerial word).wordEnd = word[12].stop ∧
    (decodeSerial word).mantStart = word[0].start ∧ (decodeSerial word).mantEnd = word[9].stop ∧
    (decodeSerial word).expStart = word[10].start ∧ (decodeSerial word).expEnd = word[12].stop

/-- The source's worked words (95_test_vectors.md W1, W2, W3), from 13 levels in capture order. -/
def Obligations.SourceExamplesDecode : Prop :=
  let word (bits : List Bool) : List (SerialBit Config.idxW) := bits.map fun b => ⟨b, 0, 0⟩
  let zeros := decodeSerial (word (List.replicate 13 false))
  let ones := decodeSerial (word (List.replicate 10 true ++ List.replicate 3 false))
  let scenario := decodeSerial (word ([true] ++ List.replicate 9 false ++ [true, false, false]))
  zeros.mantissaF64 = 0xBFEFF80000000000 ∧ zeros.exponentF64 = 0 ∧ zeros.voutF64 = 0x4003FD80A0000000 ∧
  zeros.norm = 32735 ∧
  ones.mantissaF64 = 0x3FEFF80000000000 ∧ ones.voutF64 = 0x4004027F60000000 ∧ ones.norm = 32799 ∧
  scenario.wordMant = 512 ∧ scenario.wordExp = 1 ∧ scenario.mantissaF64 = 0x3F50000000000000 ∧
  scenario.exponentF64 = 0x3FF0000000000000 ∧ scenario.voutF64 = 0x4004000050000000 ∧ scenario.norm = 32767

/-! ### The machine -/

/-- The status ports (10_state.md R17, R25) between steps. -/
def Obligations.StatusPortsShowTheState : Prop :=
  ∀ s : State, s.Inv →
    (stLen s.toStateOf).toNat = s.sr.length ∧ (stFull s.toStateOf = true ↔ 13 ≤ s.sr.length) ∧
    stEnded s.toStateOf = s.ended ∧ stBitsSeen s.toStateOf = s.bitsSeen

/-- The invariant holds at reset. -/
def Obligations.InvariantHoldsAtReset : Prop :=
  State.reset.Inv

/-- Every step keeps the invariant: the register never holds more than 13 entries between steps, all of them point
events; a presented bit event is the register's newest bit; a presented word event is the word the register holds. -/
def Obligations.EveryStepKeepsTheInvariant : Prop :=
  ∀ s t : State, s.Inv → step s = .next t → t.Inv

/-- The machine refines the abstract model of 10_state.md R34 (which the spec marks as its own derivation): from
every state, a command gives the abstract state and the events that the abstract step gives. -/
def Obligations.ExecRefinesTheAbstractModel : Prop :=
  ∀ (i : Instr) (s : State), ∃ t, exec i s = .next t ∧
    absOf t = ((absOf s).step i).1 ∧ t.events = s.events ++ ((absOf s).step i).2

/-- A whole session, from any state, by its rising edges (41_shift_register.md section 2, whose rules on the window
and on the word condition the spec marks as its own derivations): after RESET and any commands without another
RESET, the register holds the bits of the last 13 edges, the counter their number, `last_load` the last edge's
load level, and the events are exactly those the word condition gives for each edge. -/
def Obligations.SessionFollowsItsRisingEdges : Prop :=
  ∀ (s : State) (cs : List Instr), .reset ∉ cs →
    ∃ t, core.run (cs.length + 1) (s.presenting (.reset :: cs)) = .next t ∧
      t.sr = ((edges none (accepted cs)).map Sample.bit).drop ((edges none (accepted cs)).length - 13) ∧
      t.bitsSeen = BitVec.ofNat Config.cntW (edges none (accepted cs)).length ∧
      t.lastLoad = (((edges none (accepted cs)).getLast?).map Sample.load).getD false ∧
      t.prevValid = !(accepted cs).isEmpty ∧
      t.prevClk = (((accepted cs).getLast?).map Sample.clock).getD false ∧
      t.ended = decide (.endStream ∈ cs) ∧
      t.events = s.events ++ sessionEvents (edges none (accepted cs))

/-- A word sent to a running session is decoded, whatever the session held before (30_encoding.md section 3, whose
expansion's effect the spec marks as its own derivation): after `WORD b_0 ... b_12 @i` the last two events are the
word event of exactly these levels at their own indices and the bit event of the last level, its span `i + 25` to
`i + 25`; no other word event comes in between. -/
def Obligations.SentWordIsDecoded : Prop :=
  ∀ (s : State) (levels : List Bool) (i : BitVec Config.idxW), s.ended = false → levels.length = 13 →
    ∃ t before o b, core.run 26 (s.presenting (wordCommands levels i)) = .next t ∧
      t.events = s.events ++ before ++ [.wordEv o, .bitEv b] ∧ (∀ e ∈ before, ∃ b', e = .bitEv b') ∧
      o = decodeSerial (sentWord levels i) ∧ (∀ p, p < 13 → levels[p]? = some (o.wordBits.getLsbD p)) ∧
      levels[12]? = some b.value ∧ b = edgeBit b.value (i + 25) ∧
      o.wordStart = i + 1 ∧ o.wordEnd = i + 25 ∧ (s.Inv → t.sr = sentWord levels i) ∧ t.lastLoad = false

/-- IDLE cycles may be inserted or removed anywhere (70_reset_and_hazards.md section 3; the spec marks this as its
own derivation): two command sequences that differ only in IDLEs give the same events and the same session state. -/
def Obligations.IdleCyclesDoNotMatter : Prop :=
  ∀ (s : State) (cs cs' : List Instr), cs.filter (· ≠ .idle) = cs'.filter (· ≠ .idle) →
    ∃ t t', core.run cs.length (s.presenting cs) = .next t ∧
      core.run cs'.length (s.presenting cs') = .next t' ∧ t.events = t'.events ∧ absOf t = absOf t'

/-- The reset value of `last_load` is never read (41_shift_register.md section 2; the spec marks this as its own
derivation): a session started with either value emits the same events. -/
def Obligations.ResetLoadLevelIsNeverRead : Prop :=
  ∀ (b : Bool) (cs : List Instr), ∃ t t',
    core.run cs.length (State.reset.presenting cs) = .next t ∧
    core.run cs.length ({ State.reset with lastLoad := b }.presenting cs) = .next t' ∧ t.events = t'.events

/-- If the host's sample indices do not decrease, the events of a run are emitted in non-decreasing index order
(20_memory.md section 4; the spec marks this reading as its own derivation). -/
def Obligations.EventsInIndexOrder : Prop :=
  ∀ (s : State) (cs : List Instr),
    (cs.filterMap sampleIndex).Pairwise (· ≤ ·) →
    ∃ t evs, core.run cs.length (s.presenting cs) = .next t ∧ t.events = s.events ++ evs ∧
      (evs.map fun e => (emittedAt e).toNat).Pairwise (· ≤ ·)

/-! ### The open parameters -/

/-- The machine the host knows is the width-generic machine at the default widths: the same state after reset, and
the same outcome of every step. That 64 and 32 are taken is the spec's default, which the model instantiates
(log 1; 00_scope.md section 3). -/
def Obligations.MachineIsTheDefaultWidthInstance : Prop :=
  State.reset.toStateOf = resetAt 64 32 ∧
  (∀ s t : State, step s = .next t ↔ stepAt s.toStateOf = .next t.toStateOf) ∧
  (∀ (s : State) (r : Refusal), step s = .refused r ↔ stepAt s.toStateOf = .refused r)

/-- No width matters to what the machine does (00_scope.md section 3, 10_state.md section 3): take any index widths,
any renaming of indices between them, and any two counter widths, the second no wider; then the state after reset
is renamed, and a renamed state under the renamed command gives the renamed state and events, with the counter cut
to the narrower width. -/
def Obligations.WidthsOnlyRenameIndicesAndCutTheCounter : Prop :=
  ∀ (w w' cw cw' : Nat) (f : BitVec w → BitVec w'), cw' ≤ cw →
    Renamed f (resetAt w cw) (resetAt w' cw') ∧
    ∀ (c : Command w) (s : StateOf w cw) (s' : StateOf w' cw'), Renamed f s s' →
      Renamed f (commandAt c s) (commandAt (relabelCommand f c) s')
end

