-- ==== Sys2Proof/Laws/State.lean ====
section
/-!
SUPPORT. What each named update of the state writes and what it leaves alone: one lemma per field per update, so
that no later proof unfolds a record update.
-/
namespace Sys2Proof.Machine

variable {iw cw : Nat} (s : StateOf iw cw)

/-! ### `StateOf.present` -/

@[simp] theorem StateOf.present_prevValid (p : PortInput iw) : (s.present p).prevValid = s.prevValid := rfl
@[simp] theorem StateOf.present_prevClk (p : PortInput iw) : (s.present p).prevClk = s.prevClk := rfl
@[simp] theorem StateOf.present_sr (p : PortInput iw) : (s.present p).sr = s.sr := rfl
@[simp] theorem StateOf.present_lastLoad (p : PortInput iw) : (s.present p).lastLoad = s.lastLoad := rfl
@[simp] theorem StateOf.present_bitsSeen (p : PortInput iw) : (s.present p).bitsSeen = s.bitsSeen := rfl
@[simp] theorem StateOf.present_ended (p : PortInput iw) : (s.present p).ended = s.ended := rfl
@[simp] theorem StateOf.present_outBitValid (p : PortInput iw) : (s.present p).outBitValid = s.outBitValid := rfl
@[simp] theorem StateOf.present_outBit (p : PortInput iw) : (s.present p).outBit = s.outBit := rfl
@[simp] theorem StateOf.present_outWordValid (p : PortInput iw) :
    (s.present p).outWordValid = s.outWordValid := rfl
@[simp] theorem StateOf.present_outWord (p : PortInput iw) : (s.present p).outWord = s.outWord := rfl
@[simp] theorem StateOf.present_inputs (p : PortInput iw) : (s.present p).inputs = p :: s.inputs := rfl
@[simp] theorem StateOf.present_events (p : PortInput iw) : (s.present p).events = s.events := rfl
@[simp] theorem StateOf.present_freeCount (p : PortInput iw) : (s.present p).freeCount = s.freeCount := rfl

/-! ### `StateOf.recordClock` -/

@[simp] theorem StateOf.recordClock_prevValid (c : Bool) : (s.recordClock c).prevValid = true := rfl
@[simp] theorem StateOf.recordClock_prevClk (c : Bool) : (s.recordClock c).prevClk = c := rfl
@[simp] theorem StateOf.recordClock_sr (c : Bool) : (s.recordClock c).sr = s.sr := rfl
@[simp] theorem StateOf.recordClock_lastLoad (c : Bool) : (s.recordClock c).lastLoad = s.lastLoad := rfl
@[simp] theorem StateOf.recordClock_bitsSeen (c : Bool) : (s.recordClock c).bitsSeen = s.bitsSeen := rfl
@[simp] theorem StateOf.recordClock_ended (c : Bool) : (s.recordClock c).ended = s.ended := rfl
@[simp] theorem StateOf.recordClock_outBitValid (c : Bool) :
    (s.recordClock c).outBitValid = s.outBitValid := rfl
@[simp] theorem StateOf.recordClock_outBit (c : Bool) : (s.recordClock c).outBit = s.outBit := rfl
@[simp] theorem StateOf.recordClock_outWordValid (c : Bool) :
    (s.recordClock c).outWordValid = s.outWordValid := rfl
@[simp] theorem StateOf.recordClock_outWord (c : Bool) : (s.recordClock c).outWord = s.outWord := rfl
@[simp] theorem StateOf.recordClock_inputs (c : Bool) : (s.recordClock c).inputs = s.inputs := rfl
@[simp] theorem StateOf.recordClock_events (c : Bool) : (s.recordClock c).events = s.events := rfl
@[simp] theorem StateOf.recordClock_freeCount (c : Bool) : (s.recordClock c).freeCount = s.freeCount := rfl

/-! ### `StateOf.appendBit` -/

@[simp] theorem StateOf.appendBit_prevValid (d l : Bool) (i : BitVec iw) :
    (s.appendBit d l i).prevValid = s.prevValid := rfl
@[simp] theorem StateOf.appendBit_prevClk (d l : Bool) (i : BitVec iw) :
    (s.appendBit d l i).prevClk = s.prevClk := rfl
@[simp] theorem StateOf.appendBit_sr (d l : Bool) (i : BitVec iw) :
    (s.appendBit d l i).sr = appendRegister s.sr d i := rfl
@[simp] theorem StateOf.appendBit_lastLoad (d l : Bool) (i : BitVec iw) :
    (s.appendBit d l i).lastLoad = l := rfl
@[simp] theorem StateOf.appendBit_bitsSeen (d l : Bool) (i : BitVec iw) :
    (s.appendBit d l i).bitsSeen = countBit s.bitsSeen := rfl
@[simp] theorem StateOf.appendBit_ended (d l : Bool) (i : BitVec iw) :
    (s.appendBit d l i).ended = s.ended := rfl
@[simp] theorem StateOf.appendBit_outBitValid (d l : Bool) (i : BitVec iw) :
    (s.appendBit d l i).outBitValid = s.outBitValid := rfl
@[simp] theorem StateOf.appendBit_outBit (d l : Bool) (i : BitVec iw) :
    (s.appendBit d l i).outBit = s.outBit := rfl
@[simp] theorem StateOf.appendBit_outWordValid (d l : Bool) (i : BitVec iw) :
    (s.appendBit d l i).outWordValid = s.outWordValid := rfl
@[simp] theorem StateOf.appendBit_outWord (d l : Bool) (i : BitVec iw) :
    (s.appendBit d l i).outWord = s.outWord := rfl
@[simp] theorem StateOf.appendBit_inputs (d l : Bool) (i : BitVec iw) :
    (s.appendBit d l i).inputs = s.inputs := rfl
@[simp] theorem StateOf.appendBit_events (d l : Bool) (i : BitVec iw) :
    (s.appendBit d l i).events = s.events := rfl
@[simp] theorem StateOf.appendBit_freeCount (d l : Bool) (i : BitVec iw) :
    (s.appendBit d l i).freeCount = s.freeCount := rfl

/-! ### `StateOf.setEnded` -/

@[simp] theorem StateOf.setEnded_prevValid : s.setEnded.prevValid = s.prevValid := rfl
@[simp] theorem StateOf.setEnded_prevClk : s.setEnded.prevClk = s.prevClk := rfl
@[simp] theorem StateOf.setEnded_sr : s.setEnded.sr = s.sr := rfl
@[simp] theorem StateOf.setEnded_lastLoad : s.setEnded.lastLoad = s.lastLoad := rfl
@[simp] theorem StateOf.setEnded_bitsSeen : s.setEnded.bitsSeen = s.bitsSeen := rfl
@[simp] theorem StateOf.setEnded_ended : s.setEnded.ended = true := rfl
@[simp] theorem StateOf.setEnded_outBitValid : s.setEnded.outBitValid = s.outBitValid := rfl
@[simp] theorem StateOf.setEnded_outBit : s.setEnded.outBit = s.outBit := rfl
@[simp] theorem StateOf.setEnded_outWordValid : s.setEnded.outWordValid = s.outWordValid := rfl
@[simp] theorem StateOf.setEnded_outWord : s.setEnded.outWord = s.outWord := rfl
@[simp] theorem StateOf.setEnded_inputs : s.setEnded.inputs = s.inputs := rfl
@[simp] theorem StateOf.setEnded_events : s.setEnded.events = s.events := rfl
@[simp] theorem StateOf.setEnded_freeCount : s.setEnded.freeCount = s.freeCount := rfl

/-! ### `StateOf.clearSession` -/

@[simp] theorem StateOf.clearSession_prevValid : s.clearSession.prevValid = false := rfl
@[simp] theorem StateOf.clearSession_prevClk : s.clearSession.prevClk = false := rfl
@[simp] theorem StateOf.clearSession_sr : s.clearSession.sr = [] := rfl
@[simp] theorem StateOf.clearSession_lastLoad : s.clearSession.lastLoad = false := rfl
@[simp] theorem StateOf.clearSession_bitsSeen : s.clearSession.bitsSeen = 0 := rfl
@[simp] theorem StateOf.clearSession_ended : s.clearSession.ended = false := rfl
@[simp] theorem StateOf.clearSession_outBitValid : s.clearSession.outBitValid = s.outBitValid := rfl
@[simp] theorem StateOf.clearSession_outBit : s.clearSession.outBit = s.outBit := rfl
@[simp] theorem StateOf.clearSession_outWordValid : s.clearSession.outWordValid = s.outWordValid := rfl
@[simp] theorem StateOf.clearSession_outWord : s.clearSession.outWord = s.outWord := rfl
@[simp] theorem StateOf.clearSession_inputs : s.clearSession.inputs = s.inputs := rfl
@[simp] theorem StateOf.clearSession_events : s.clearSession.events = s.events := rfl
@[simp] theorem StateOf.clearSession_freeCount : s.clearSession.freeCount = s.freeCount := rfl

/-! ### `StateOf.latch` -/

@[simp] theorem StateOf.latch_prevValid (evs : List (Event iw)) :
    (s.latch evs).prevValid = s.prevValid := rfl
@[simp] theorem StateOf.latch_prevClk (evs : List (Event iw)) :
    (s.latch evs).prevClk = s.prevClk := rfl
@[simp] theorem StateOf.latch_sr (evs : List (Event iw)) : (s.latch evs).sr = s.sr := rfl
@[simp] theorem StateOf.latch_lastLoad (evs : List (Event iw)) :
    (s.latch evs).lastLoad = s.lastLoad := rfl
@[simp] theorem StateOf.latch_bitsSeen (evs : List (Event iw)) :
    (s.latch evs).bitsSeen = s.bitsSeen := rfl
@[simp] theorem StateOf.latch_ended (evs : List (Event iw)) : (s.latch evs).ended = s.ended := rfl
@[simp] theorem StateOf.latch_outBitValid (evs : List (Event iw)) :
    (s.latch evs).outBitValid = (bitEventOf evs).isSome := rfl
@[simp] theorem StateOf.latch_outBit (evs : List (Event iw)) :
    (s.latch evs).outBit = (bitEventOf evs).getD (Config.freeBitOut iw s.freeCount) := rfl
@[simp] theorem StateOf.latch_outWordValid (evs : List (Event iw)) :
    (s.latch evs).outWordValid = (wordEventOf evs).isSome := rfl
@[simp] theorem StateOf.latch_outWord (evs : List (Event iw)) :
    (s.latch evs).outWord = (wordEventOf evs).getD (Config.freeWordOut iw s.freeCount) := rfl
@[simp] theorem StateOf.latch_inputs (evs : List (Event iw)) : (s.latch evs).inputs = s.inputs := rfl
@[simp] theorem StateOf.latch_events (evs : List (Event iw)) :
    (s.latch evs).events = s.events ++ evs := rfl
@[simp] theorem StateOf.latch_freeCount (evs : List (Event iw)) :
    (s.latch evs).freeCount = s.freeCount + 1 := rfl

end Sys2Proof.Machine
end

