-- ==== Sys2Proof/Laws/Ops.lean ====
section
/-!
SUPPORT. For each shared operation, one lemma that says everything it can do, for citation in place of
unfolding.
-/
namespace Sys2Proof.Machine

variable {w : Nat}

/-- `fetchAt` answers the head of what the host presents, decoded, and takes it; or it says why it cannot. -/
theorem fetchAt_cases {cw : Nat} (s : StateOf w cw) :
    (s.inputs = [] ∧ fetchAt s = .error .noCommand) ∨
    (∃ rest, s.inputs = .nonBinary :: rest ∧ fetchAt s = .error .nonBinaryInput) ∨
    (∃ iw idx rest, s.inputs = .levels iw idx :: rest ∧
      fetchAt s = .ok (decodeCommand iw idx, { s with inputs := rest })) := by
  unfold fetchAt
  rcases s.inputs with _ | ⟨_ | _, rest⟩
  · exact .inl ⟨rfl, rfl⟩
  · exact .inr (.inr ⟨_, _, rest, rfl, rfl⟩)
  · exact .inr (.inl ⟨rest, rfl, rfl⟩)

/-- What stays in the register after an eviction: at most one head less. -/
theorem evict_eq_drop (sr : List (SerialBit w)) :
    evict sr = sr.drop (if sr.length > 13 then 1 else 0) := by
  unfold evict
  split <;> simp

/-- The register after an Append, by how full it was (41_shift_register.md R73, R80). -/
theorem appendRegister_cases (sr : List (SerialBit w)) (d : Bool) (i : BitVec w) :
    (sr.length ≤ 12 ∧ appendRegister sr d i = sr ++ [edgeBit d i]) ∨
    (13 ≤ sr.length ∧ appendRegister sr d i = sr.tail ++ [edgeBit d i]) := by
  rcases Nat.lt_or_ge 12 sr.length with h | h
  · refine .inr ⟨h, ?_⟩
    have hne : sr ≠ [] := List.ne_nil_of_length_pos (by omega)
    simp [appendRegister, evict, Nat.not_lt.mpr h, List.tail_append_of_ne_nil hne]
  · exact .inl ⟨h, by simp [appendRegister, evict, Nat.not_le.mpr (Nat.lt_succ_of_le h)]⟩

/-- The newest bit is the tail of the register after an Append. -/
theorem appendRegister_getLast? (sr : List (SerialBit w)) (d : Bool) (i : BitVec w) :
    (appendRegister sr d i).getLast? = some (edgeBit d i) := by
  rcases appendRegister_cases sr d i with ⟨_, h⟩ | ⟨_, h⟩ <;> simp [h]

/-- An Append fills the register up to 13 entries and keeps it there. -/
theorem appendRegister_length (sr : List (SerialBit w)) (d : Bool) (i : BitVec w) :
    (appendRegister sr d i).length = if sr.length ≤ 12 then sr.length + 1 else sr.length := by
  rcases appendRegister_cases sr d i with ⟨h, e⟩ | ⟨h, e⟩
  · simp [e, h]
  · simp [e, Nat.not_le.mpr h]
    omega

/-- With at most 13 bits held before, the window of an Append at a full register is what the register holds
after it. -/
theorem window_append_eq (sr : List (SerialBit w)) (d : Bool) (i : BitVec w) (h12 : 12 ≤ sr.length)
    (h13 : sr.length ≤ 13) : window (sr ++ [edgeBit d i]) = appendRegister sr d i := by
  have hl : sr.length = 12 ∨ sr.length = 13 := by omega
  rcases hl with hl | hl <;> simp [window, appendRegister, evict, hl, List.drop_one]

/-- What an Append emits, by how full the register was and whether the load level has fallen. -/
theorem appendEvents_cases (sr : List (SerialBit w)) (lastLoad d l : Bool) (i : BitVec w) :
    (sr.length < 12 ∧ appendEvents sr lastLoad d l i = []) ∨
    (12 ≤ sr.length ∧ ¬(lastLoad = true ∧ l = false) ∧
      appendEvents sr lastLoad d l i = [.bitEv (edgeBit d i)]) ∨
    (12 ≤ sr.length ∧ lastLoad = true ∧ l = false ∧
      appendEvents sr lastLoad d l i =
        [.wordEv (decodeSerial (window (sr ++ [edgeBit d i]))), .bitEv (edgeBit d i)]) := by
  rcases Nat.lt_or_ge sr.length 12 with h | h
  · exact .inl ⟨h, by simp [appendEvents, fullGate, h]⟩
  · cases lastLoad <;> cases l <;> simp [appendEvents, fullGate, loadFalls, h]

end Sys2Proof.Machine
end

