-- ==== Sys2Proof/Laws/Exec.lean ====
section
/-!
SUPPORT. The one inversion lemma of `commandAt`, `exec` as its instance, and the inversion of `step`.
-/
namespace Sys2Proof.Machine

variable {iw cw : Nat}

/-- Every command ends its step by latching its events over one update of the state (10_state.md R13). -/
theorem commandAt_cases (c : Command iw) (s : StateOf iw cw) :
    (c = .reset ∧ commandAt c s = s.clearSession.latch []) ∨
    (c = .endStream ∧ commandAt c s = s.setEnded.latch []) ∨
    (c = .idle ∧ commandAt c s = s.latch []) ∨
    (∃ k d l x, c = .sample k d l x ∧ s.ended = true ∧ commandAt c s = s.latch []) ∨
    (∃ k d l x, c = .sample k d l x ∧ s.ended = false ∧ risingEdge s.prevValid s.prevClk k = false ∧
      commandAt c s = (s.recordClock k).latch []) ∨
    (∃ d l x, c = .sample true d l x ∧ s.ended = false ∧ s.prevValid = true ∧ s.prevClk = false ∧
      commandAt c s =
        ((s.recordClock true).appendBit d l x).latch (appendEvents s.sr s.lastLoad d l x)) := by
  cases c with
  | reset => exact .inl ⟨rfl, rfl⟩
  | endStream => exact .inr (.inl ⟨rfl, rfl⟩)
  | idle => exact .inr (.inr (.inl ⟨rfl, rfl⟩))
  | sample k d l x =>
    cases he : s.ended with
    | true => exact .inr (.inr (.inr (.inl ⟨k, d, l, x, rfl, rfl, by simp [commandAt, sampleAt, he]⟩)))
    | false =>
      cases hr : risingEdge s.prevValid s.prevClk k with
      | false =>
        exact .inr (.inr (.inr (.inr (.inl
          ⟨k, d, l, x, rfl, rfl, hr, by simp [commandAt, sampleAt, he, hr]⟩))))
      | true =>
        obtain ⟨⟨hv, hp⟩, rfl⟩ : (s.prevValid = true ∧ s.prevClk = false) ∧ k = true := by
          simpa [risingEdge] using hr
        exact .inr (.inr (.inr (.inr (.inr
          ⟨d, l, x, rfl, rfl, hv, hp, by simp [commandAt, sampleAt, he, hr]⟩))))

/-- `exec` is the width-generic machine's command at the default widths. -/
theorem exec_eq_commandAt (i : Instr) (s : State) :
    exec i s = .next { toStateOf := commandAt i.command s.toStateOf } := by
  cases i <;> rfl

/-- A step that answers a next state has run the decoded command. -/
theorem step_next {s t : State} (h : step s = .next t) :
    ∃ iw idx rest, s.inputs = .levels iw idx :: rest ∧
      exec (Instr.ofCommand (decodeCommand iw idx)) { s with inputs := rest } = .next t := by
  unfold step fetch at h
  rcases fetchAt_cases s.toStateOf with ⟨_, hf⟩ | ⟨_, _, hf⟩ | ⟨iw, idx, rest, hs, hf⟩
  · simp [hf] at h
  · simp [hf] at h
  · exact ⟨iw, idx, rest, hs, by simpa [hf] using h⟩

end Sys2Proof.Machine
end

