-- ==== Sys2Proof/Laws/PerInstr.lean ====
section
/-!
SUPPORT. Statements made for every command as syntax, one lemma per constructor.
-/
namespace Sys2Proof.Laws.OwnRow

/-- The command word of a well-formed command is selected by exactly the rows of the command map that carry
the command's own name (30_encoding.md R61). -/
def Statement (i : Instr) : Prop :=
  i.wellFormed = true → ∀ r ∈ commandMap, r.selects (encodeWord i) = (r.mnemonic == i.mnemonic)

theorem reset : Statement .reset := by
  intro _; decide

theorem endStream : Statement .endStream := by
  intro _; decide

theorem sample (c d l : Bool) (i : BitVec Config.idxW) : Statement (.sample c d l i) := by
  intro h
  clear h
  simp only [encodeWord, Instr.command, commandWord, Instr.mnemonic]
  revert c d l
  decide

theorem idle : Statement .idle := by
  intro _; decide

end Sys2Proof.Laws.OwnRow
end

