-- ==== Sys2Proof/Tests/Slice0.lean ====
section
/-!
SUPPORT. The model's own tests, on expected results from spec/95_test_vectors.md and the rules, and for each
statement with hypotheses a concrete case that meets them all.
-/
namespace Sys2Proof.Machine

/-! ### Well-formedness: the one check, and a term it refuses (60_exceptions.md R110) -/

theorem test_wellFormed_refuses_nonBinary : (PortInput.nonBinary : PortInput Config.idxW).wellFormed = false := by decide
theorem test_wellFormed_takes_levels : (PortInput.levels 0b111111#6 (0 : BitVec Config.idxW)).wellFormed = true := by decide

/-! ### Decoding: words written out from 30_encoding.md R48 (rst, s_end, s_valid, load, data, clock) -/

theorem test_decode_reset : decodeTableWord 8 0b100000 = some .reset := by decide
theorem test_decode_reset_wins : decode (.levels 0b111111#6 3) = .ok .reset := by decide
theorem test_decode_end_takes_no_sample : decode (.levels 0b011111#6 3) = .ok .endStream := by decide
theorem test_decode_sample_clock_load :
    decode (.levels 0b001101#6 3) = .ok (.sample true false true 3) := by decide
theorem test_decode_sample_data_load :
    decode (.levels 0b001110#6 24) = .ok (.sample false true true 24) := by decide
theorem test_decode_idle : decodeTableWord 8 0b000111 = some .idle := by decide
theorem test_encode_sample : encodeWord (.sample true true false 3) = 0b001011#6 := by decide

/-! ### A small state: the first `n` edges of a session at indices 0, 1, 2, ... with the clock low again -/

/-- `n` bits held, data 1 0 1 0 ..., index `k` at position `k`, the last load level 1. -/
def held (n : Nat) : State :=
  { State.reset with
    prevValid := true
    sr := (List.range n).map fun k => edgeBit (k % 2 == 0) (BitVec.ofNat 64 k)
    lastLoad := true
    bitsSeen := BitVec.ofNat 32 n }

/-! ### One step per command (95_test_vectors.md sections 2.2, 2.3 and 2.5) -/

/-- Section 2.5, row 5: RESET clears an ended session. -/
theorem test_reset_clears : ∃ t, exec .reset { held 13 with ended := true } = .next t ∧
    t.sr = [] ∧ t.bitsSeen = 0 ∧ t.ended = false ∧ t.prevValid = false ∧ t.lastLoad = false :=
  ⟨_, rfl, rfl, rfl, rfl, rfl, rfl⟩

/-- Section 2.5, row 1: END keeps a partial word. -/
theorem test_end_keeps_partial_word : ∃ t, exec .endStream (held 7) = .next t ∧
    t.sr.length = 7 ∧ t.ended = true ∧ t.events = [] :=
  ⟨_, rfl, rfl, rfl, rfl⟩

/-- Section 2.2: an IDLE keeps the clock history. -/
theorem test_idle_keeps_history : ∃ t, exec .idle (held 3) = .next t ∧
    t.prevValid = true ∧ t.prevClk = false ∧ t.sr.length = 3 :=
  ⟨_, rfl, rfl, rfl, rfl⟩

/-- Section 2.3, the row n = 13, last_load 1, l 0: a word, then its bit, and the head goes. -/
theorem test_sample_word_at_full : ∃ t, exec (.sample true true false 500) (held 13) = .next t ∧
    t.sr.length = 13 ∧ t.sr.head?.map SerialBit.start = some 1 ∧ t.outWordValid = true ∧
    t.outWord.wordStart = 1 ∧ t.outWord.wordEnd = 500 ∧ t.outBit.stop = 500 ∧ t.events.length = 2 :=
  ⟨_, rfl, by decide, by decide, by decide, by decide, by decide, by decide, by decide⟩

/-- Section 2.3, corner case: a load falling edge at the 12th edge takes no word and shows no bit. -/
theorem test_sample_twelfth_edge_silent : ∃ t, exec (.sample true true false 33) (held 11) = .next t ∧
    t.sr.length = 12 ∧ t.events = [] ∧ t.lastLoad = false :=
  ⟨_, rfl, by decide, by decide, rfl⟩

/-! ### The word decoder (95_test_vectors.md section 2.4, rows 1, 6, 8, 9 and 13) -/

/-- A word from its 13 levels in capture order. -/
def wordOf (bits : List Nat) : List (SerialBit 64) := bits.map fun b => ⟨b == 1, 0, 0⟩

theorem test_decoder_zeros : (decodeSerial (wordOf [0,0,0,0,0,0,0,0,0,0, 0,0,0])).voutF64 = 0x4003FD80A0000000 := by
  decide +kernel
theorem test_decoder_least_mantissa_bit :
    (decodeSerial (wordOf [0,0,0,0,0,0,0,0,0,1, 0,0,0])).mantissaF64 = 0xBFEFE80000000000 := by
  decide +kernel
theorem test_decoder_mixed_word :
    let o := decodeSerial (wordOf [1,0,1,0,1,0,1,0,1,0, 1,1,0])
    o.wordBits = 0x0D55 ∧ o.wordMant = 682 ∧ o.wordExp = 3 ∧ o.voutF64 = 0x4004001AA4000000 ∧ o.norm = 32768 := by
  decide +kernel
theorem test_decoder_exponent_four :
    (decodeSerial (wordOf [0,0,0,0,0,0,0,0,0,0, 0,0,1])).exponentF64 = 0x4010000000000000 := by
  decide +kernel
theorem test_decoder_truncates_above_half :
    (decodeSerial (wordOf [1,0,0,0,0,0,0,0,0,0, 1,1,1])).norm = 32767 := by
  decide +kernel

/-- 95_test_vectors.md section 2.3: with a 4-bit counter, 15 is followed by 0. -/
theorem test_counter_wraps : countBit (15 : BitVec 4) = 0 := by decide

/-- The same in a step of the machine with 8-bit indices and a 4-bit counter. -/
theorem test_narrow_machine_counts_modulo_16 : ∃ t : StateOf 8 4,
    stepAt { resetAt 8 4 with
      prevValid := true, bitsSeen := 15, inputs := [.levels 0b001011#6 200] } = .next t ∧
    t.bitsSeen = 0 ∧ t.sr = [edgeBit true 200] := ⟨_, rfl, rfl, rfl⟩

/-! ### Witnesses: states and operands that meet each statement's hypotheses -/

theorem witness_roundTrip : (Instr.sample true false true 7).wellFormed = true := by decide

theorem witness_encodeDecode :
    decode (.levels 0b001101#6 7) = .ok (.sample true false true 7) ∧
    decode (.levels 0b111111#6 7) = .ok .reset ∧
    (∃ r ∈ commandMap, r.mnemonic = Instr.reset.mnemonic) := by decide

theorem witness_dontCareBits :
    (0b111111#6).getLsbD 5 = true ∧
    ((0b011111#6).getLsbD 5 = false ∧ (0b011111#6).getLsbD 4 = true) ∧
    ((0b000111#6).getLsbD 5 = false ∧ (0b000111#6).getLsbD 4 = false ∧ (0b000111#6).getLsbD 3 = false) := by
  decide

theorem witness_nonBinary : { State.reset with inputs := [PortInput.nonBinary] }.inputs = .nonBinary :: [] := rfl

/-- Each outcome of a step that the two machines share has a state. -/
theorem witness_defaultWidths :
    (∃ t, step (State.reset.withFetchWord 8 0b001101) = .next t) ∧ step State.reset = .refused .noCommand :=
  ⟨⟨_, rfl⟩, rfl⟩

/-- `held 13` at widths 8 and 4, written out. -/
def narrowFull : StateOf 8 4 :=
  { resetAt 8 4 with
    prevValid := true
    sr := (List.range 13).map fun k => edgeBit (k % 2 == 0) (BitVec.ofNat 8 k)
    lastLoad := true
    bitsSeen := 13 }

/-- Widths 64 and 32 beside 8 and 4, with indices cut to 8 bits: two related states with a full register. -/
theorem witness_widths : 4 ≤ 32 ∧ Renamed (BitVec.setWidth 8) (held 13).toStateOf narrowFull :=
  ⟨by decide, by constructor <;> decide⟩

theorem witness_stepRuns :
    (State.reset.withFetchWord 8 0b001101).inputs = .levels 0b001101#6 0 :: [] ∧
    decode (.levels 0b001101#6 0) = .ok (.sample true false true 0) ∧
    (Instr.sample true false true 0).wellFormed = true ∧ State.reset.inputs = [] := by decide

theorem witness_ended : { held 13 with ended := true }.ended = true ∧ Instr.idle ≠ .reset := by decide

theorem witness_sampleWithoutEdge :
    (held 13).ended = false ∧ ¬((held 13).prevValid = true ∧ (held 13).prevClk = false ∧ false = true) ∧
    State.reset.ended = false ∧
    ¬(State.reset.prevValid = true ∧ State.reset.prevClk = false ∧ true = true) := by decide

/-- A rising edge at each end of both clauses on what the register held. -/
theorem witness_risingEdge : ∀ n ∈ [0, 12, 13],
    (held n).ended = false ∧ (held n).prevValid = true ∧ (held n).prevClk = false ∧
      ((held n).sr.length ≤ 12 ↔ n ≠ 13) ∧ (13 ≤ (held n).sr.length ↔ n = 13) := by decide

theorem witness_firstSample : State.reset.ended = false ∧ State.reset.prevValid = false := by decide

theorem witness_twoCommands : Instr.sample true true true 1 ≠ .reset ∧ Instr.idle ≠ .reset := by decide

/-- The filling edge at both ends of its range. -/
theorem witness_filling :
    ((held 0).ended = false ∧ (held 0).prevValid = true ∧ (held 0).prevClk = false ∧ (held 0).sr.length < 12) ∧
    ((held 11).ended = false ∧ (held 11).prevValid = true ∧ (held 11).prevClk = false ∧
      (held 11).sr.length < 12) := by decide

/-- The full edge without a load fall, completing the register and at a full one. -/
theorem witness_fullWithoutFall :
    ((held 12).ended = false ∧ (held 12).prevValid = true ∧ (held 12).prevClk = false ∧
      12 ≤ (held 12).sr.length ∧ ((held 12).lastLoad, true) ≠ (true, false)) ∧
    ((held 13).ended = false ∧ (held 13).prevValid = true ∧ (held 13).prevClk = false ∧
      12 ≤ (held 13).sr.length ∧ ((held 13).lastLoad, true) ≠ (true, false)) := by decide

/-- The load fall, completing the register and at a full one. -/
theorem witness_loadFall :
    ((held 12).ended = false ∧ (held 12).prevValid = true ∧ (held 12).prevClk = false ∧
      12 ≤ (held 12).sr.length ∧ (held 12).lastLoad = true) ∧
    ((held 13).ended = false ∧ (held 13).prevValid = true ∧ (held 13).prevClk = false ∧
      12 ≤ (held 13).sr.length ∧ (held 13).lastLoad = true) := by decide

/-- Each clause about the phase has a state. -/
theorem witness_phase :
    phase (held 13).toStateOf = .full ∧ Instr.endStream ≠ .reset ∧ phase (held 12).toStateOf = .filling ∧
    (∃ t, exec (.sample true true true 12) (held 12) = .next t ∧ phase t.toStateOf = .full) :=
  ⟨by decide, by decide, by decide, _, rfl, by decide⟩

/-- Each clause about word spacing has a state: one that emits a word, and one with `last_load = 0` that sets it. -/
theorem witness_wordSpacing :
    (∃ t, exec (.sample true true false 13) (held 13) = .next t ∧ t.outWordValid = true) ∧
    ({ held 13 with lastLoad := false }.lastLoad = false ∧
      ∃ t, exec (.sample true true true 13) { held 13 with lastLoad := false } = .next t ∧ t.lastLoad = true) :=
  ⟨⟨_, rfl, by decide⟩, rfl, _, rfl, rfl⟩

/-- Registers of 13 and 14 entries, at the first and the last position. -/
theorem witness_word :
    (13 ≤ (held 13).sr.length ∧ 0 < 13) ∧ (13 ≤ (held 14).sr.length ∧ 12 < 13) := by decide

/-- Each clause about the word ports has a position at each end of its range. -/
theorem witness_wordPorts : (0 < 13 ∧ 12 < 13) ∧ (0 < 10 ∧ 9 < 10) ∧ (0 < 3 ∧ 2 < 3) := by decide

theorem witness_spans : (held 13).sr.length = 13 := by decide

/-- The invariant holds in a state with a full register. -/
theorem witness_inv_full : (held 13).Inv where
  length_le := by decide
  points := by decide
  counted := by decide
  fresh := by decide
  bitShown := by decide
  wordShown := by intro h; exact absurd h (by decide)
  paired := by decide

/-- A state that meets the invariant and takes a step that emits a word. -/
theorem witness_invariantStep :
    ((held 13).presenting [.sample true true false 13]).Inv ∧
    ∃ t, step ((held 13).presenting [.sample true true false 13]) = .next t ∧ t.outWordValid = true := by
  obtain ⟨h1, h2, h3, h4, h5, h6, h7⟩ := witness_inv_full
  exact ⟨⟨h1, h2, h3, h4, h5, h6, h7⟩, _, rfl, by decide⟩

theorem witness_session :
    Instr.reset ∉ [Instr.sample false true true 0, .idle, .sample true true true 1, .endStream] := by decide

theorem witness_sentWord :
    (held 13).ended = false ∧ (List.replicate 13 true).length = 13 ∧ (held 13).Inv :=
  ⟨by decide, by decide, witness_inv_full⟩

theorem witness_idles :
    [Instr.sample false true true 0, .idle, .idle, .endStream].filter (· ≠ .idle) =
      [Instr.sample false true true 0, .endStream].filter (· ≠ .idle) := by decide

theorem witness_indexOrder :
    ([Instr.sample false true true 4, .idle, .sample true true true 4, .sample false true true 9].filterMap
      sampleIndex).Pairwise (· ≤ ·) := by decide

end Sys2Proof.Machine
end

namespace Sys2Proof.Machine

/-! ### What a step may emit, and what the output registers show of it (10_state.md R28) -/

section OutputRegisters

variable {iw cw : Nat}

@[simp] theorem bitEventOf_nil : bitEventOf ([] : List (Event iw)) = none := rfl
@[simp] theorem bitEventOf_bitEv_cons (b : SerialBit iw) (es : List (Event iw)) :
    bitEventOf (.bitEv b :: es) = some b := rfl
@[simp] theorem bitEventOf_wordEv_cons (o : WordOut iw) (es : List (Event iw)) :
    bitEventOf (.wordEv o :: es) = bitEventOf es := rfl
@[simp] theorem wordEventOf_nil : wordEventOf ([] : List (Event iw)) = none := rfl
@[simp] theorem wordEventOf_wordEv_cons (o : WordOut iw) (es : List (Event iw)) :
    wordEventOf (.wordEv o :: es) = some o := rfl
@[simp] theorem wordEventOf_bitEv_cons (b : SerialBit iw) (es : List (Event iw)) :
    wordEventOf (.bitEv b :: es) = wordEventOf es := rfl

/-- The event lists a single step can have: an Append's word event never stands without the bit event of the
same edge behind it (41_shift_register.md R72). -/
inductive StepEvents : List (Event iw) → Prop
  | silent : StepEvents []
  | bit (b : SerialBit iw) : StepEvents [.bitEv b]
  | wordThenBit (o : WordOut iw) (b : SerialBit iw) : StepEvents [.wordEv o, .bitEv b]

/-- `t`'s output registers present exactly the events `evs` (10_state.md R28); a data register whose valid bit is
0 is left open. -/
def StateOf.ShowsEvents (t : StateOf iw cw) (evs : List (Event iw)) : Prop :=
  (evs = [] ∧ t.outBitValid = false ∧ t.outWordValid = false) ∨
  (evs = [.bitEv t.outBit] ∧ t.outBitValid = true ∧ t.outWordValid = false) ∨
  (evs = [.wordEv t.outWord, .bitEv t.outBit] ∧ t.outBitValid = true ∧ t.outWordValid = true)

theorem stepEvents_appendEvents (sr : List (SerialBit iw)) (lastLoad d l : Bool) (i : BitVec iw) :
    StepEvents (appendEvents sr lastLoad d l i) := by
  rcases appendEvents_cases sr lastLoad d l i with ⟨-, h⟩ | ⟨-, -, h⟩ | ⟨-, -, -, h⟩ <;> rw [h]
  · exact .silent
  · exact .bit _
  · exact .wordThenBit _ _

/-- Every command latches the events of one step over a state whose event list is still the old one. -/
theorem commandAt_eq_latch (c : Command iw) (s : StateOf iw cw) :
    ∃ u evs, commandAt c s = StateOf.latch u evs ∧ u.events = s.events ∧ StepEvents evs := by
  rcases commandAt_cases c s with ⟨-, h⟩ | ⟨-, h⟩ | ⟨-, h⟩ | ⟨_, _, _, _, -, -, h⟩ |
    ⟨_, _, _, _, -, -, -, h⟩ | ⟨_, _, _, -, -, -, -, h⟩
  · exact ⟨_, _, h, rfl, .silent⟩
  · exact ⟨_, _, h, rfl, .silent⟩
  · exact ⟨_, _, h, rfl, .silent⟩
  · exact ⟨_, _, h, rfl, .silent⟩
  · exact ⟨_, _, h, rfl, .silent⟩
  · exact ⟨_, _, h, rfl, stepEvents_appendEvents ..⟩

theorem StateOf.latch_showsEvents (u : StateOf iw cw) {evs : List (Event iw)} (h : StepEvents evs) :
    (u.latch evs).ShowsEvents evs := by
  cases h with
  | silent => exact .inl ⟨rfl, by simp, by simp⟩
  | bit b => exact .inr (.inl ⟨by simp, by simp, by simp⟩)
  | wordThenBit o b => exact .inr (.inr ⟨by simp, by simp, by simp⟩)

/-- At every width, a command extends the event list by one step's events and its output registers show them. -/
theorem commandAt_showsEvents (c : Command iw) (s : StateOf iw cw) :
    ∃ evs, (commandAt c s).events = s.events ++ evs ∧ (commandAt c s).ShowsEvents evs := by
  obtain ⟨u, evs, hlatch, hevents, hevs⟩ := commandAt_eq_latch c s
  rw [hlatch]
  exact ⟨evs, by simp [hevents], u.latch_showsEvents hevs⟩

end OutputRegisters

/-- Settles O10: every command ends in a latch, and the latch shows what an Append, or a silent command, emits. -/
theorem outputRegistersShowTheStepsEvents : Obligations.OutputRegistersShowTheStepsEvents := by
  intro i s
  obtain ⟨evs, hevents, hshows⟩ := commandAt_showsEvents i.command s.toStateOf
  exact ⟨_, evs, exec_eq_commandAt i s, hevents, hshows⟩

/-! ### The status ports (10_state.md R17, R25) -/

section StatusPorts

variable {iw cw : Nat} (s : StateOf iw cw)

theorem phase_eq_full_iff : phase s = .full ↔ 13 ≤ s.sr.length := by
  simp [phase]

theorem stFull_iff : stFull s = true ↔ 13 ≤ s.sr.length := by
  rw [stFull, beq_iff_eq, phase_eq_full_iff]

/-- The four bits of `st_len` hold `sr_len` without loss whenever it is in the range of R21. -/
theorem stLen_toNat (h : s.sr.length ≤ 13) : (stLen s).toNat = s.sr.length := by
  rw [stLen, BitVec.toNat_ofNat, Nat.mod_eq_of_lt (by omega)]

@[simp] theorem stEnded_eq : stEnded s = s.ended := rfl
@[simp] theorem stBitsSeen_eq : stBitsSeen s = s.bitsSeen := rfl

end StatusPorts

/-- Settles O43: the invariant bounds `sr_len` by 13, so it fits `st_len`. -/
theorem statusPortsShowTheState : Obligations.StatusPortsShowTheState := by
  intro s hinv
  exact ⟨stLen_toNat _ hinv.length_le, stFull_iff _, stEnded_eq _, stBitsSeen_eq _⟩

end Sys2Proof.Machine

namespace Sys2Proof

/-! ### The command decoder by its prefix bits, and the rows of the command map (30_encoding.md R49, R61) -/

section CommandDecoder

variable {w : Nat} {iw : CommandWord} {idx : BitVec w}

theorem decodeCommand_of_rst (h5 : iw.getLsbD 5 = true) : decodeCommand iw idx = .reset := by
  rw [decodeCommand, if_pos h5]

theorem decodeCommand_of_end (h5 : iw.getLsbD 5 = false) (h4 : iw.getLsbD 4 = true) :
    decodeCommand iw idx = .endStream := by
  rw [decodeCommand, h5, if_neg Bool.false_ne_true, if_pos h4]

theorem decodeCommand_of_valid (h5 : iw.getLsbD 5 = false) (h4 : iw.getLsbD 4 = false)
    (h3 : iw.getLsbD 3 = true) :
    decodeCommand iw idx = .sample (iw.getLsbD 0) (iw.getLsbD 1) (iw.getLsbD 2) idx := by
  rw [decodeCommand, h5, h4, if_neg Bool.false_ne_true, if_neg Bool.false_ne_true, if_pos h3]

theorem decodeCommand_of_noPrefix (h5 : iw.getLsbD 5 = false) (h4 : iw.getLsbD 4 = false)
    (h3 : iw.getLsbD 3 = false) : decodeCommand iw idx = .idle := by
  rw [decodeCommand, h5, h4, h3, if_neg Bool.false_ne_true, if_neg Bool.false_ne_true,
    if_neg Bool.false_ne_true]

/-- Binary levels always decode: there is no illegal command word (30_encoding.md R52). -/
theorem decode_levels (iw : CommandWord) (idx : BitVec Config.idxW) :
    decode (.levels iw idx) = .ok (Instr.ofCommand (decodeCommand iw idx)) := rfl

/-- The four kinds of command word, told apart by the prefix bits in priority order. -/
theorem commandWord_prefix_cases (iw : CommandWord) :
    iw.getLsbD 5 = true ∨
    (iw.getLsbD 5 = false ∧ iw.getLsbD 4 = true) ∨
    (iw.getLsbD 5 = false ∧ iw.getLsbD 4 = false ∧ iw.getLsbD 3 = true) ∨
    (iw.getLsbD 5 = false ∧ iw.getLsbD 4 = false ∧ iw.getLsbD 3 = false) := by
  cases iw.getLsbD 5 <;> cases iw.getLsbD 4 <;> cases iw.getLsbD 3 <;> decide

/-! Each row of the command map selects the words with the prefix that the decoder tests for its command. -/

theorem resetRow_selects_iff (iw : CommandWord) :
    iw &&& 0b100000#6 = 0b100000#6 ↔ iw.getLsbD 5 = true := by
  revert iw; decide

theorem endRow_selects_iff (iw : CommandWord) :
    iw &&& 0b110000#6 = 0b010000#6 ↔ iw.getLsbD 5 = false ∧ iw.getLsbD 4 = true := by
  revert iw; decide

theorem sampleRow_selects_iff (iw : CommandWord) :
    iw &&& 0b111000#6 = 0b001000#6 ↔
      iw.getLsbD 5 = false ∧ iw.getLsbD 4 = false ∧ iw.getLsbD 3 = true := by
  revert iw; decide

theorem idleRow_selects_iff (iw : CommandWord) :
    iw &&& 0b111000#6 = 0b000000#6 ↔
      iw.getLsbD 5 = false ∧ iw.getLsbD 4 = false ∧ iw.getLsbD 3 = false := by
  revert iw; decide

/-- Two different rows disagree on a bit that both their masks keep. -/
theorem commandMap_eq_of_match_compatible : ∀ r ∈ commandMap, ∀ r' ∈ commandMap,
    r.matchBits &&& r'.mask = r'.matchBits &&& r.mask → r' = r := by
  decide

/-- The rows of the command map exclude each other, so R61's priority never has to choose between two. -/
theorem commandMap_selected_unique {r r' : CommandRow} (hr : r ∈ commandMap) (hr' : r' ∈ commandMap)
    (h : iw &&& r.mask = r.matchBits) (h' : iw &&& r'.mask = r'.matchBits) : r' = r := by
  apply commandMap_eq_of_match_compatible r hr r' hr'
  calc r.matchBits &&& r'.mask
      = iw &&& r.mask &&& r'.mask := by rw [h]
    _ = iw &&& r'.mask &&& r.mask := by rw [BitVec.and_assoc, BitVec.and_comm r.mask, ← BitVec.and_assoc]
    _ = r'.matchBits &&& r.mask := by rw [h']

end CommandDecoder

/-- Some row selects each command word and names the command the decoder gives it; a SAMPLE carries the row's
fields. -/
theorem exists_row_selects_decoded (iw : CommandWord) (idx : BitVec Config.idxW) :
    ∃ r ∈ commandMap, iw &&& r.mask = r.matchBits ∧
      ∃ i, decode (.levels iw idx) = .ok i ∧ i.mnemonic = r.mnemonic ∧
        (i.mnemonic = "SAMPLE" → i = .sample (iw.getLsbD 0) (iw.getLsbD 1) (iw.getLsbD 2) idx) := by
  rw [decode_levels]
  rcases commandWord_prefix_cases iw with h5 | ⟨h5, h4⟩ | ⟨h5, h4, h3⟩ | ⟨h5, h4, h3⟩
  · rw [decodeCommand_of_rst h5]
    exact ⟨⟨1, "RESET", 0b100000#6, 0b100000#6⟩, by decide, (resetRow_selects_iff iw).mpr h5,
      .reset, rfl, rfl, fun h => absurd h (by decide)⟩
  · rw [decodeCommand_of_end h5 h4]
    exact ⟨⟨2, "END", 0b010000#6, 0b110000#6⟩, by decide, (endRow_selects_iff iw).mpr ⟨h5, h4⟩,
      .endStream, rfl, rfl, fun h => absurd h (by decide)⟩
  · rw [decodeCommand_of_valid h5 h4 h3]
    exact ⟨⟨3, "SAMPLE", 0b001000#6, 0b111000#6⟩, by decide, (sampleRow_selects_iff iw).mpr ⟨h5, h4, h3⟩,
      .sample _ _ _ idx, rfl, rfl, fun _ => rfl⟩
  · rw [decodeCommand_of_noPrefix h5 h4 h3]
    exact ⟨⟨4, "IDLE", 0b000000#6, 0b111000#6⟩, by decide, (idleRow_selects_iff iw).mpr ⟨h5, h4, h3⟩,
      .idle, rfl, rfl, fun h => absurd h (by decide)⟩

/-- Settles O3: the word's prefix bits give the row and the command, and no second row can match. -/
theorem commandMapSelectsDecodedCommand : Obligations.CommandMapSelectsDecodedCommand := by
  intro iw idx
  obtain ⟨r, hr, hsel, hdecoded⟩ := exists_row_selects_decoded iw idx
  exact ⟨r, hr, hsel, fun r' hr' hsel' => commandMap_selected_unique hr hr' hsel hsel', hdecoded⟩

end Sys2Proof

namespace Sys2Proof.Machine

/-! ### The most recent 13 entries of the register (30_encoding.md R53, R54) -/

section Window

variable {w : Nat} {sr : List (SerialBit w)}

theorem window_length (h : 13 ≤ sr.length) : (window sr).length = 13 := by
  rw [window, List.length_drop, Nat.sub_sub_self h]

/-- Position `p` of the word is entry `L - 13 + p` of a register of `L` entries. -/
theorem entryAt_window (h : 13 ≤ sr.length) {p : Nat} (hp : p < 13) :
    sr[sr.length - 13 + p]? = some (entryAt (window sr) p) := by
  have hlt : sr.length - 13 + p < sr.length := by omega
  rw [entryAt, window, List.getD_eq_getElem?_getD, List.getElem?_drop, List.getElem?_eq_getElem hlt,
    Option.getD_some]

end Window

/-- Settles O35: value, start and end are the three fields of the one entry `entryAt_window` names. -/
theorem wordIsTheMostRecentThirteenBits : Obligations.WordIsTheMostRecentThirteenBits := by
  intro w sr p h hp
  rw [entryAt_window h hp]
  exact ⟨window_length h, rfl, rfl, rfl⟩

/-! ### Ports that hold no command (60_exceptions.md R110) -/

/-- A step refuses the ports on which some level is not 0 or 1, whatever the state is. -/
theorem step_of_nonBinary {s : State} {rest : List (PortInput Config.idxW)}
    (h : s.inputs = .nonBinary :: rest) : step s = .refused .nonBinaryInput := by
  rcases fetchAt_cases s.toStateOf with ⟨hs, _⟩ | ⟨_, _, hf⟩ | ⟨_, _, _, hs, _⟩
  · simp [hs] at h
  · rw [step, fetch, hf]
  · simp [hs] at h

/-- Settles O4: the decoder is total on binary levels, and reads only the prefix of a RESET, END or IDLE. -/
theorem noIllegalCommandWordAndDontCareBits : Obligations.NoIllegalCommandWordAndDontCareBits := by
  refine ⟨fun iw idx => ⟨_, decode_levels iw idx⟩, ?_, ?_, ?_, fun s rest h => step_of_nonBinary h⟩
  · intro iw idx h5
    rw [decode_levels, decodeCommand_of_rst h5, Instr.ofCommand]
  · intro iw idx h5 h4
    rw [decode_levels, decodeCommand_of_end h5 h4, Instr.ofCommand]
  · intro iw idx h5 h4 h3
    rw [decode_levels, decodeCommand_of_noPrefix h5 h4 h3, Instr.ofCommand]

end Sys2Proof.Machine

namespace Sys2Proof.Machine

/-! ### A SAMPLE of a running session, with and without a rising edge (40_edge_sampler.md R63 to R66) -/

section EdgeSampling

variable {iw cw : Nat}

theorem risingEdge_iff (prevValid prevClk c : Bool) :
    risingEdge prevValid prevClk c = true ↔ prevValid = true ∧ prevClk = false ∧ c = true := by
  simp [risingEdge, and_assoc]

theorem sampleAt_of_edge {s : StateOf iw cw} (d l : Bool) (i : BitVec iw) (hended : s.ended = false)
    (hvalid : s.prevValid = true) (hclk : s.prevClk = false) :
    sampleAt true d l i s =
      ((s.recordClock true).appendBit d l i).latch (appendEvents s.sr s.lastLoad d l i) := by
  have hedge := (risingEdge_iff s.prevValid s.prevClk true).mpr ⟨hvalid, hclk, rfl⟩
  rw [sampleAt, hended, if_neg Bool.false_ne_true, if_pos hedge]

theorem sampleAt_of_not_edge {s : StateOf iw cw} (c d l : Bool) (i : BitVec iw) (hended : s.ended = false)
    (hedge : ¬(s.prevValid = true ∧ s.prevClk = false ∧ c = true)) :
    sampleAt c d l i s = (s.recordClock c).latch [] := by
  rw [sampleAt, hended, if_neg Bool.false_ne_true, if_neg (mt (risingEdge_iff ..).mp hedge)]

theorem countBit_toNat (n : BitVec cw) : (countBit n).toNat = (n.toNat + 1) % 2 ^ cw := by
  simp [countBit]

theorem appendRegister_of_length_le {sr : List (SerialBit iw)} (d : Bool) (i : BitVec iw) (h : sr.length ≤ 12) :
    appendRegister sr d i = sr ++ [edgeBit d i] := by
  rcases appendRegister_cases sr d i with ⟨-, hsr⟩ | ⟨hfull, -⟩
  · exact hsr
  · omega

theorem appendRegister_of_le_length {sr : List (SerialBit iw)} (d : Bool) (i : BitVec iw) (h : 13 ≤ sr.length) :
    appendRegister sr d i = sr.tail ++ [edgeBit d i] := by
  rcases appendRegister_cases sr d i with ⟨hfill, -⟩ | ⟨-, hsr⟩
  · omega
  · exact hsr

end EdgeSampling

/-- A SAMPLE that is a rising edge records the clock high and appends its own data, load level and index (R66). -/
theorem exec_sample_of_edge {s : State} (d l : Bool) (i : BitVec Config.idxW) (hended : s.ended = false)
    (hvalid : s.prevValid = true) (hclk : s.prevClk = false) :
    exec (.sample true d l i) s = .next { toStateOf :=
      ((s.toStateOf.recordClock true).appendBit d l i).latch (appendEvents s.sr s.lastLoad d l i) } := by
  rw [← sampleAt_of_edge d l i hended hvalid hclk]
  exact exec_eq_commandAt (.sample true d l i) s

/-- A SAMPLE that is no rising edge leaves its clock level in the clock history and no other trace. -/
theorem exec_sample_of_not_edge {s : State} (c d l : Bool) (i : BitVec Config.idxW) (hended : s.ended = false)
    (hedge : ¬(s.prevValid = true ∧ s.prevClk = false ∧ c = true)) :
    ∃ t, exec (.sample c d l i) s = .next t ∧
      SameCore { s with prevValid := true, prevClk := c } t ∧ Quiet s t := by
  refine ⟨{ toStateOf := (s.toStateOf.recordClock c).latch [] }, ?_, by simp [SameCore], by simp [Quiet]⟩
  rw [← sampleAt_of_not_edge c d l i hended hedge]
  exact exec_eq_commandAt (.sample c d l i) s

/-- Settles O20: a rising edge runs an Append of this sample's own operands, and the register's rules say what
that leaves in it. -/
theorem risingEdgeCapturesThisSample : Obligations.RisingEdgeCapturesThisSample := by
  intro s d l i hended hvalid hclk
  exact ⟨_, exec_sample_of_edge d l i hended hvalid hclk, appendRegister_getLast? s.sr d i,
    appendRegister_of_length_le d i, appendRegister_of_le_length d i, countBit_toNat s.bitsSeen,
    rfl, rfl, rfl, hended⟩

/-- Settles O21: without a previous sample there is no edge, and after a sample with the clock high the recorded
level rules out the next one, whose own recording of the clock then changes nothing. -/
theorem firstSampleIsNeverAnEdge : Obligations.FirstSampleIsNeverAnEdge := by
  intro s c d l i hended hvalid
  obtain ⟨t, ht, hcore, hquiet⟩ := exec_sample_of_not_edge c d l i hended (by simp [hvalid])
  refine ⟨t, ht, hcore, hquiet, fun hc d' l' i' => ?_⟩
  obtain ⟨hvalid', hclk', -, -, -, hended'⟩ := hcore
  have hhigh : t.prevClk = true := hclk'.trans hc
  obtain ⟨u, hu, hcore', hquiet'⟩ :=
    exec_sample_of_not_edge true d' l' i' (hended'.trans hended) (by simp [hhigh])
  exact ⟨u, hu, by simpa [SameCore, hvalid', hhigh] using hcore', hquiet'⟩

end Sys2Proof.Machine

namespace Sys2Proof.Machine

/-! ### The positions a word has, and the spans of a word event (42_word_decoder.md R99 to R101) -/

section WordPositions

variable {w : Nat} {word : List (SerialBit w)} {p : Nat}

/-- At a position the word has, the fallback of `entryAt` is not used. -/
theorem entryAt_eq_getElem (hp : p < word.length) : entryAt word p = word[p] :=
  List.getD_eq_getElem word default hp

theorem startAt_eq_getElem_start (hp : p < word.length) : startAt word p = word[p].start := by
  rw [startAt, entryAt_eq_getElem hp]

theorem stopAt_eq_getElem_stop (hp : p < word.length) : stopAt word p = word[p].stop := by
  rw [stopAt, entryAt_eq_getElem hp]

end WordPositions

/-- Settles O41: the decoder takes each span end at one position, and a word of 13 entries has all of them. -/
theorem wordEventSpans : Obligations.WordEventSpans := by
  intro w word h
  have hpos {p : Nat} (hp : p < 13) : p < word.length := h ▸ hp
  exact ⟨startAt_eq_getElem_start (hpos (by decide)), stopAt_eq_getElem_stop (hpos (by decide)),
    startAt_eq_getElem_start (hpos (by decide)), stopAt_eq_getElem_stop (hpos (by decide)),
    startAt_eq_getElem_start (hpos (by decide)), stopAt_eq_getElem_stop (hpos (by decide))⟩

end Sys2Proof.Machine

namespace Sys2Proof.Machine

/-! ### Exceptions (60_exceptions.md) -/

/-- Settles O7: `fetch` stops at such ports before any command runs. -/
theorem nonBinaryInputIsRefused : Obligations.NonBinaryInputIsRefused :=
  fun _ _ h => step_of_nonBinary h

/-- Settles O8: `exec` always answers the state `commandAt` computes, and R107 leaves `Fault` without a
constructor. -/
theorem everyCommandCompletes : Obligations.EveryCommandCompletes := by
  constructor
  · intro i s
    exact ⟨_, exec_eq_commandAt i s⟩
  · intro _ f
    exact nomatch f

end Sys2Proof.Machine

namespace Sys2Proof.Machine

/-! ### RESET (70_reset_and_hazards.md R119 to R121) -/

theorem exec_reset (s : State) :
    exec .reset s = .next { toStateOf := s.toStateOf.clearSession.latch [] } :=
  exec_eq_commandAt .reset s

/-- Latching no event over an update that left the run's event list alone is a step that emits nothing. -/
theorem quiet_latch_nil {s : State} {u : StateOf Config.idxW Config.cntW} (h : u.events = s.events) :
    Quiet s { toStateOf := u.latch [] } :=
  ⟨u.latch_outBitValid [], u.latch_outWordValid [], by simp [h]⟩

/-- Settles O12: RESET is `clearSession` followed by a latch of no event, and the latch keeps every element that
`clearSession` has written. -/
theorem resetClearsTheSession : Obligations.ResetClearsTheSession := by
  intro s
  refine ⟨_, exec_reset s, ?_⟩
  have hquiet := quiet_latch_nil s.toStateOf.clearSession_events
  simpa using hquiet

end Sys2Proof.Machine

namespace Sys2Proof

/-! ### Decoding what the encoder writes, and encoding what the decoder read (30_encoding.md R48 to R51, R61) -/

section RoundTrip

variable {w : Nat}

/-- The operand bits of a SAMPLE's command word, under its prefix `001`. -/
theorem commandWord_sample_getLsbD (c d l : Bool) (i : BitVec w) :
    (commandWord (.sample c d l i)).getLsbD 5 = false ∧ (commandWord (.sample c d l i)).getLsbD 4 = false ∧
    (commandWord (.sample c d l i)).getLsbD 3 = true ∧ (commandWord (.sample c d l i)).getLsbD 2 = l ∧
    (commandWord (.sample c d l i)).getLsbD 1 = d ∧ (commandWord (.sample c d l i)).getLsbD 0 = c := by
  simp only [commandWord]
  revert c d l
  decide

/-- A word with the SAMPLE prefix is the command word of the operands read from it. -/
theorem commandWord_of_valid {iw : CommandWord} (idx : BitVec w) (h5 : iw.getLsbD 5 = false)
    (h4 : iw.getLsbD 4 = false) (h3 : iw.getLsbD 3 = true) :
    commandWord (.sample (iw.getLsbD 0) (iw.getLsbD 1) (iw.getLsbD 2) idx) = iw := by
  simp only [commandWord]
  revert iw
  decide

theorem decodeCommand_commandWord (c : Command w) : decodeCommand (commandWord c) (commandIndex c) = c := by
  cases c with
  | reset => exact decodeCommand_of_rst (by simp [commandWord])
  | endStream => exact decodeCommand_of_end (by simp [commandWord]) (by simp [commandWord])
  | idle => exact decodeCommand_of_noPrefix (by simp [commandWord]) (by simp [commandWord]) (by simp [commandWord])
  | sample c d l i =>
    obtain ⟨h5, h4, h3, hl, hd, hc⟩ := commandWord_sample_getLsbD c d l i
    rw [decodeCommand_of_valid h5 h4 h3, hl, hd, hc, commandIndex]

theorem decodeAt_encodeAt (c : Command w) : decodeAt (encodeAt c) = .ok c :=
  congrArg Except.ok (decodeCommand_commandWord c)

end RoundTrip

@[simp] theorem Instr.ofCommand_command (i : Instr) : Instr.ofCommand i.command = i := by
  cases i <;> rfl

@[simp] theorem Instr.command_ofCommand (c : Command Config.idxW) : (Instr.ofCommand c).command = c := by
  cases c <;> rfl

theorem decode_encode (i : Instr) : decode (encode i) = .ok i := by
  rw [encode, encodeAt, decode_levels, decodeCommand_commandWord, Instr.ofCommand_command]

/-- Settles O1: the command word shows the command's prefix and operands in the bits the decoder reads. -/
theorem decodeEncodeRoundTrip : Obligations.DecodeEncodeRoundTrip :=
  ⟨fun i _ => ⟨rfl, decode_encode i⟩, fun _ => decodeAt_encodeAt⟩

/-- Every encoded command is selected by its own row (30_encoding.md R61). -/
theorem encodeWord_selected_by_ownRow (i : Instr) {r : CommandRow} (hr : r ∈ commandMap)
    (hname : r.mnemonic = i.mnemonic) : encodeWord i &&& r.mask = r.matchBits := by
  have hrow : Laws.OwnRow.Statement i := by
    cases i with
    | reset => exact Laws.OwnRow.reset
    | endStream => exact Laws.OwnRow.endStream
    | sample c d l x => exact Laws.OwnRow.sample c d l x
    | idle => exact Laws.OwnRow.idle
  simpa [CommandRow.selects, hname] using hrow (by cases i <;> rfl) r hr

theorem commandMap_mnemonic_injective : ∀ r ∈ commandMap, ∀ r' ∈ commandMap,
    r.mnemonic = r'.mnemonic → r = r' := by
  decide

/-- A SAMPLE is decoded only from the ports that encode it. -/
theorem encode_of_decode_sample {iw : CommandWord} {idx x : BitVec Config.idxW} {c d l : Bool}
    (h : decode (.levels iw idx) = .ok (.sample c d l x)) : encode (.sample c d l x) = .levels iw idx := by
  rw [decode_levels] at h
  rcases commandWord_prefix_cases iw with h5 | ⟨h5, h4⟩ | ⟨h5, h4, h3⟩ | ⟨h5, h4, h3⟩
  · simp [decodeCommand_of_rst h5, Instr.ofCommand] at h
  · simp [decodeCommand_of_end h5 h4, Instr.ofCommand] at h
  · rw [decodeCommand_of_valid h5 h4 h3] at h
    obtain ⟨rfl, rfl, rfl, rfl⟩ : iw.getLsbD 0 = c ∧ iw.getLsbD 1 = d ∧ iw.getLsbD 2 = l ∧ idx = x := by
      simpa [Instr.ofCommand] using h
    exact congrArg (PortInput.levels · idx) (commandWord_of_valid idx h5 h4 h3)
  · simp [decodeCommand_of_noPrefix h5 h4 h3, Instr.ofCommand] at h

/-- Settles O2: the word read and the word written are selected by the same row, the only one of that name. -/
theorem encodeDecodeAgreesOnReadBits : Obligations.EncodeDecodeAgreesOnReadBits := by
  intro iw idx i hdecode
  refine ⟨fun r hr hname => ?_, fun c d l x hi => by subst hi; exact encode_of_decode_sample hdecode⟩
  obtain ⟨r', hr', hsel, j, hj, hname', -⟩ := exists_row_selects_decoded iw idx
  obtain rfl : i = j := Except.ok.inj (hdecode.symm.trans hj)
  obtain rfl := commandMap_mnemonic_injective r hr r' hr' (hname.trans hname')
  rw [encodeWord_selected_by_ownRow i hr hname, hsel]

/-- Settles O5: nine written-out words, decoded. -/
theorem writtenCommandWordsDecode : Obligations.WrittenCommandWordsDecode := by
  unfold Obligations.WrittenCommandWordsDecode
  decide

end Sys2Proof

namespace Sys2Proof.Machine

/-! ### The step, and the machine at the default widths (10_state.md R13) -/

/-- The state a command leaves, at the default widths. -/
def State.after (s : State) (i : Instr) : State :=
  { toStateOf := commandAt i.command s.toStateOf }

theorem exec_eq_after (i : Instr) (s : State) : exec i s = .next (s.after i) :=
  exec_eq_commandAt i s

theorem step_of_decode {s : State} {p : PortInput Config.idxW} {rest : List (PortInput Config.idxW)} {i : Instr}
    (hs : s.inputs = p :: rest) (hp : decode p = .ok i) : step s = exec i { s with inputs := rest } := by
  rcases fetchAt_cases s.toStateOf with ⟨hs', -⟩ | ⟨_, hs', -⟩ | ⟨iw, idx, _, hs', hf⟩
  · simp [hs] at hs'
  · obtain ⟨rfl, -⟩ := List.cons.inj (hs.symm.trans hs')
    simp [decode, decodeAt] at hp
  · obtain ⟨rfl, rfl⟩ := List.cons.inj (hs.symm.trans hs')
    obtain rfl : Instr.ofCommand (decodeCommand iw idx) = i := Except.ok.inj hp
    simp [step, fetch, hf]

theorem step_of_no_inputs {s : State} (h : s.inputs = []) : step s = .refused .noCommand := by
  simp [step, fetch, fetchAt, h]

/-- Settles O6: `fetch` hands `step` the decoded head of the input list and the state without it. -/
theorem stepRunsTheDecodedCommand : Obligations.StepRunsTheDecodedCommand :=
  ⟨fun _ _ _ _ hs hp _ => step_of_decode hs hp, fun _ => step_of_no_inputs⟩

/-- The machine under the host's names refuses exactly where the width-generic one does, and else reaches the same
state. -/
theorem step_cases (s : State) :
    (∃ t : State, step s = .next t ∧ stepAt s.toStateOf = .next t.toStateOf) ∨
    (∃ r, step s = .refused r ∧ stepAt s.toStateOf = .refused r) := by
  rcases fetchAt_cases s.toStateOf with ⟨-, hf⟩ | ⟨_, -, hf⟩ | ⟨iw, idx, rest, -, hf⟩
  · exact .inr ⟨.noCommand, by simp [step, fetch, hf], by simp [stepAt, hf]⟩
  · exact .inr ⟨.nonBinaryInput, by simp [step, fetch, hf], by simp [stepAt, hf]⟩
  · refine .inl ⟨State.after { s with inputs := rest } (Instr.ofCommand (decodeCommand iw idx)), ?_, ?_⟩
    · simp [step, fetch, hf, exec_eq_after]
    · simp [stepAt, hf, State.after]

theorem State.toStateOf_inj {s t : State} : s.toStateOf = t.toStateOf ↔ s = t :=
  ⟨fun h => by cases s; cases t; exact congrArg State.mk h, congrArg State.toStateOf⟩

/-- Settles O52: both steps answer alike, and `State` adds no field that could tell two states apart. -/
theorem machineIsTheDefaultWidthInstance : Obligations.MachineIsTheDefaultWidthInstance := by
  refine ⟨rfl, fun s t => ?_, fun s r => ?_⟩ <;>
    rcases step_cases s with ⟨u, hu, hu'⟩ | ⟨r', hr, hr'⟩
  · simp [hu, hu', State.toStateOf_inj]
  · simp [hr, hr']
  · simp [hu, hu']
  · simp [hr, hr']

/-! ### What a command can do to the register (41_shift_register.md R72, R81, R83) -/

section CommandShape

variable {iw cw : Nat}

/-- `u` is `s` but for `ended` and a clock level recorded in the history: what a command other than RESET that
appends nothing may write before its step ends. -/
structure StateOf.SilentUpdate (s u : StateOf iw cw) : Prop where
  sr : u.sr = s.sr
  lastLoad : u.lastLoad = s.lastLoad
  bitsSeen : u.bitsSeen = s.bitsSeen
  inputs : u.inputs = s.inputs
  events : u.events = s.events
  clock : u.prevValid = false → s.prevValid = false ∧ u.prevClk = s.prevClk

/-- A command is a RESET, or appends nothing and emits nothing, or is a rising edge of a running session. -/
theorem commandAt_reset_or_silent_or_append (c : Command iw) (s : StateOf iw cw) :
    (c = .reset ∧ commandAt c s = s.clearSession.latch []) ∨
    (c ≠ .reset ∧ ∃ u, s.SilentUpdate u ∧ commandAt c s = u.latch []) ∨
    (∃ d l x, c = .sample true d l x ∧ s.ended = false ∧ s.prevValid = true ∧ s.prevClk = false ∧
      commandAt c s =
        ((s.recordClock true).appendBit d l x).latch (appendEvents s.sr s.lastLoad d l x)) := by
  rcases commandAt_cases c s with h | ⟨rfl, h⟩ | ⟨rfl, h⟩ | ⟨k, d, l, x, rfl, -, h⟩ |
    ⟨k, d, l, x, rfl, -, -, h⟩ | happend
  · exact .inl h
  · exact .inr (.inl ⟨nofun, s.setEnded, ⟨rfl, rfl, rfl, rfl, rfl, fun hv => ⟨hv, rfl⟩⟩, h⟩)
  · exact .inr (.inl ⟨nofun, s, ⟨rfl, rfl, rfl, rfl, rfl, fun hv => ⟨hv, rfl⟩⟩, h⟩)
  · exact .inr (.inl ⟨nofun, s, ⟨rfl, rfl, rfl, rfl, rfl, fun hv => ⟨hv, rfl⟩⟩, h⟩)
  · exact .inr (.inl ⟨nofun, s.recordClock k, ⟨rfl, rfl, rfl, rfl, rfl, nofun⟩, h⟩)
  · exact .inr (.inr happend)

theorem commandAt_inputs (c : Command iw) (s : StateOf iw cw) : (commandAt c s).inputs = s.inputs := by
  rcases commandAt_reset_or_silent_or_append c s with ⟨-, h⟩ | ⟨-, u, hu, h⟩ | ⟨d, l, x, -, -, -, -, h⟩ <;> rw [h]
  · rfl
  · exact hu.inputs
  · rfl

/-- Outside RESET a command leaves register and counter, or counts a bit at a clock that was low and is now
high. -/
theorem commandAt_counts_at_edge {c : Command iw} (hc : c ≠ .reset) (s : StateOf iw cw) :
    ((commandAt c s).bitsSeen = s.bitsSeen ∧ (commandAt c s).sr = s.sr) ∨
    (s.prevClk = false ∧ (commandAt c s).prevClk = true ∧ (commandAt c s).bitsSeen = s.bitsSeen + 1) := by
  rcases commandAt_reset_or_silent_or_append c s with ⟨h, -⟩ | ⟨-, u, hu, h⟩ | ⟨d, l, x, -, -, -, hclk, h⟩
  · exact absurd h hc
  · exact .inl (h ▸ ⟨hu.bitsSeen, hu.sr⟩)
  · exact .inr (h ▸ ⟨hclk, rfl, rfl⟩)

/-- The register is kept, emptied by RESET, or slides by one point-event bit. -/
theorem commandAt_sr_slides (c : Command iw) (s : StateOf iw cw) :
    (commandAt c s).sr = s.sr ∨ (c = .reset ∧ (commandAt c s).sr = []) ∨
    ∃ b : SerialBit iw, b.start = b.stop ∧
      (s.sr.length ≤ 12 ∧ (commandAt c s).sr = s.sr ++ [b] ∨
        13 ≤ s.sr.length ∧ (commandAt c s).sr = s.sr.tail ++ [b]) := by
  rcases commandAt_reset_or_silent_or_append c s with ⟨hc, h⟩ | ⟨-, u, hu, h⟩ | ⟨d, l, x, -, -, -, -, h⟩ <;> rw [h]
  · exact .inr (.inl ⟨hc, rfl⟩)
  · exact .inl hu.sr
  · exact .inr (.inr ⟨edgeBit d x, rfl, appendRegister_cases s.sr d x⟩)

end CommandShape

theorem Instr.command_eq_reset_iff (i : Instr) : i.command = .reset ↔ i = .reset := by
  cases i <;> simp [Instr.command]

/-- Settles O9: only `fetch` takes from the input list. -/
theorem commandsLeaveTheHostsInputs : Obligations.CommandsLeaveTheHostsInputs :=
  fun i s => ⟨_, exec_eq_after i s, commandAt_inputs i.command s.toStateOf⟩

/-- Settles O23: two counted bits would need the clock low after the first edge left it high. -/
theorem atMostOneAppendPerTwoCommands : Obligations.AtMostOneAppendPerTwoCommands := by
  intro s i j hi hj
  refine ⟨_, _, exec_eq_after i s, exec_eq_after j _, ?_⟩
  rcases commandAt_counts_at_edge (mt (Instr.command_eq_reset_iff i).mp hi) s.toStateOf with
    ⟨hn, hsr⟩ | ⟨-, hhigh, hn⟩ <;>
  rcases commandAt_counts_at_edge (mt (Instr.command_eq_reset_iff j).mp hj) (s.after i).toStateOf with
    ⟨hn', hsr'⟩ | ⟨hlow, -, hn'⟩
  · exact .inl ⟨hn'.trans hn, hsr'.trans hsr⟩
  · exact .inr (hn'.trans (congrArg (· + 1) hn))
  · exact .inr (hn'.trans hn)
  · exact absurd (hlow.symm.trans hhigh) Bool.false_ne_true

/-- Settles O29: an Append makes the register slide, RESET empties it, and no other command writes it. -/
theorem registerOnlySlides : Obligations.RegisterOnlySlides := by
  intro i s
  refine ⟨_, exec_eq_after i s, ?_⟩
  rw [← Instr.command_eq_reset_iff]
  exact commandAt_sr_slides i.command s.toStateOf

theorem phase_eq_filling_iff {iw cw : Nat} (s : StateOf iw cw) : phase s = .filling ↔ s.sr.length ≤ 12 := by
  simp [phase, Nat.lt_succ_iff]

/-- Settles O30: the phase is read off `sr_len`, which only RESET lowers and an Append raises by one below 13. -/
theorem fullIsLeftOnlyByReset : Obligations.FullIsLeftOnlyByReset := by
  intro i s
  refine ⟨_, exec_eq_after i s, ?_, ?_, ?_, ?_⟩
  · rw [phase_eq_full_iff, phase_eq_full_iff]
    intro hfull hi
    rcases commandAt_sr_slides i.command s.toStateOf with h | ⟨hc, -⟩ | ⟨b, -, ⟨hle, -⟩ | ⟨-, h⟩⟩
    · exact h ▸ hfull
    · exact absurd ((Instr.command_eq_reset_iff i).mp hc) hi
    · omega
    · simp only [State.after, h, List.length_append, List.length_tail, List.length_singleton]
      omega
  · rw [phase_eq_filling_iff, phase_eq_full_iff]
    simp only [State.after]
    intro hfilling hfull
    rcases commandAt_sr_slides i.command s.toStateOf with h | ⟨-, h⟩ | ⟨b, -, ⟨-, h⟩ | ⟨hle, -⟩⟩
    · rw [h] at hfull
      omega
    · simp [h] at hfull
    · rw [h, List.length_append, List.length_singleton] at hfull ⊢
      omega
    · omega
  · rintro rfl
    rfl
  · rintro rfl
    rfl

/-- A word event is taken only when the load level falls, which the Append then records. -/
theorem wordEventOf_appendEvents_isSome {w : Nat} {sr : List (SerialBit w)} {lastLoad d l : Bool} {i : BitVec w}
    (h : (wordEventOf (appendEvents sr lastLoad d l i)).isSome = true) : lastLoad = true ∧ l = false := by
  rcases appendEvents_cases sr lastLoad d l i with ⟨-, he⟩ | ⟨-, -, he⟩ | ⟨-, hlast, hl, -⟩
  · simp [he] at h
  · simp [he] at h
  · exact ⟨hlast, hl⟩

/-- Settles O31: only an Append presents a word or writes `last_load`, and its word needs the old level 1 and the
new level 0. -/
theorem noTwoWordsOnAdjacentEdges : Obligations.NoTwoWordsOnAdjacentEdges := by
  intro i s
  refine ⟨_, exec_eq_after i s, ?_⟩
  simp only [State.after]
  rcases commandAt_reset_or_silent_or_append i.command s.toStateOf with
    ⟨-, h⟩ | ⟨-, u, hu, h⟩ | ⟨d, l, x, hi, -, hvalid, hclk, h⟩ <;> rw [h]
  · simp
  · simp +contextual [hu.lastLoad]
  · refine ⟨fun hword => (wordEventOf_appendEvents_isSome hword).2, fun hlast => ⟨?_, ?_⟩⟩
    · refine Bool.eq_false_iff.mpr fun hword => ?_
      exact Bool.false_ne_true (hlast.symm.trans (wordEventOf_appendEvents_isSome hword).1)
    · rintro (rfl : l = true)
      exact ⟨d, x, by rw [← Instr.ofCommand_command i, hi, Instr.ofCommand], hvalid, hclk⟩

/-! ### RESET, END and IDLE on the session state (40_edge_sampler.md R62, R69 to R71) -/

theorem exec_idle (s : State) : exec .idle s = .next { toStateOf := s.toStateOf.latch [] } :=
  exec_eq_commandAt .idle s

theorem exec_endStream (s : State) : exec .endStream s = .next { toStateOf := s.toStateOf.setEnded.latch [] } :=
  exec_eq_commandAt .endStream s

theorem exec_sample_of_ended {s : State} (h : s.ended = true) (c d l : Bool) (i : BitVec Config.idxW) :
    exec (.sample c d l i) s = .next { toStateOf := s.toStateOf.latch [] } := by
  rw [exec_eq_commandAt, Instr.command, commandAt, sampleAt, if_pos h]

theorem sameCore_latch_nil (s : State) : SameCore s { toStateOf := s.toStateOf.latch [] } :=
  ⟨rfl, rfl, rfl, rfl, rfl, rfl⟩

/-- Settles O11: `State.reset` is written out field by field. -/
theorem resetStateHoldsTheTablesValues : Obligations.ResetStateHoldsTheTablesValues :=
  ⟨rfl, rfl, rfl, rfl, rfl, rfl, rfl, rfl⟩

/-- Settles O14: RESET writes every element that END has written. -/
theorem endBeforeResetChangesNothing : Obligations.EndBeforeResetChangesNothing := by
  intro s
  refine ⟨_, _, _, exec_reset s, exec_endStream s, exec_reset _, ⟨rfl, rfl, rfl, rfl, rfl, rfl⟩,
    quiet_latch_nil rfl, quiet_latch_nil ?_⟩
  simp

/-- Settles O15: IDLE latches no event over the state as it is. -/
theorem idleChangesNothing : Obligations.IdleChangesNothing :=
  fun s => ⟨_, exec_idle s, sameCore_latch_nil s, quiet_latch_nil rfl⟩

/-- Settles O16: END latches no event over the state with `ended` set; its prefix leaves `s_valid` unread. -/
theorem endSetsEndedOnly : Obligations.EndSetsEndedOnly := by
  refine ⟨fun s => ⟨_, exec_endStream s, sameCore_latch_nil { s with ended := true }, quiet_latch_nil rfl⟩, ?_⟩
  intro iw idx h5 h4
  rw [decode_levels, decodeCommand_of_end h5 h4, Instr.ofCommand]

/-- Settles O17: once `ended` is 1, setting it again writes nothing and a SAMPLE is not taken. -/
theorem endedBlockIgnoresAllButReset : Obligations.EndedBlockIgnoresAllButReset := by
  intro s hended
  refine ⟨fun i hi => ?_, _, exec_reset s, rfl⟩
  cases i with
  | reset => exact absurd rfl hi
  | endStream =>
    exact ⟨_, exec_endStream s, ⟨rfl, rfl, rfl, rfl, rfl, hended.symm⟩, quiet_latch_nil rfl⟩
  | sample c d l x =>
    exact ⟨_, exec_sample_of_ended hended c d l x, sameCore_latch_nil s, quiet_latch_nil rfl⟩
  | idle => exact ⟨_, exec_idle s, sameCore_latch_nil s, quiet_latch_nil rfl⟩

/-- Settles O18: END does not look at the register, and RESET empties it without an event. -/
theorem noPartialWordAtEndOfStream : Obligations.NoPartialWordAtEndOfStream :=
  fun s => ⟨_, _, exec_endStream s, quiet_latch_nil rfl, rfl, exec_reset _, quiet_latch_nil rfl, rfl⟩

/-! ### SAMPLE: what is recorded, appended and emitted (40_edge_sampler.md R63, 41_shift_register.md R72 to R80) -/

/-- Settles O19: without a rising edge a SAMPLE is its `recordClock` alone. -/
theorem sampleWithoutEdgeOnlyRecordsTheClock : Obligations.SampleWithoutEdgeOnlyRecordsTheClock :=
  fun _ c d l i hended hedge => exec_sample_of_not_edge c d l i hended hedge

/-- Settles O22: while ended no operand is read, and else only the clock level is. -/
theorem levelsBetweenEdgesAreNotSeen : Obligations.LevelsBetweenEdgesAreNotSeen := by
  intro s c d d' l l' i i' hedge
  refine ⟨_, exec_eq_after _ s, ?_⟩
  rw [exec_eq_after]
  cases hended : s.ended with
  | true => simp [State.after, Instr.command, commandAt, sampleAt, hended]
  | false =>
    simp only [State.after, Instr.command, commandAt, sampleAt_of_not_edge _ _ _ _ hended hedge]

/-- Settles O25: with fewer than 12 bits held the gate stays closed after the append. -/
theorem fillingEdgeAppendsSilently : Obligations.FillingEdgeAppendsSilently := by
  intro s d l i hended hvalid hclk hlen
  have hsilent : appendEvents s.sr s.lastLoad d l i = [] := by simp [appendEvents, fullGate, hlen]
  have hsr := appendRegister_of_length_le d i (Nat.le_of_lt hlen)
  refine ⟨_, exec_sample_of_edge d l i hended hvalid hclk, ⟨hvalid.symm, rfl, hsr, rfl, rfl, rfl⟩, ?_⟩
  rw [hsilent]
  exact quiet_latch_nil rfl

/-- At 12 bits held the register grows by the new bit, and above it slides. -/
theorem appendRegister_of_le_length_twelve {w : Nat} {sr : List (SerialBit w)} (d : Bool) (i : BitVec w)
    (h : 12 ≤ sr.length) :
    appendRegister sr d i = (if sr.length = 12 then sr else sr.tail) ++ [edgeBit d i] := by
  split
  · exact appendRegister_of_length_le d i (by omega)
  · exact appendRegister_of_le_length d i (by omega)

/-- Settles O26: the gate is open and the load has not fallen, so the bit event stands alone. -/
theorem fullEdgeWithoutLoadFallEmitsTheBit : Obligations.FullEdgeWithoutLoadFallEmitsTheBit := by
  intro s d l i hended hvalid hclk hlen hload
  have hevents : appendEvents s.sr s.lastLoad d l i = [.bitEv (edgeBit d i)] := by
    rcases appendEvents_cases s.sr s.lastLoad d l i with ⟨h, -⟩ | ⟨-, -, h⟩ | ⟨-, hlast, hl, -⟩
    · omega
    · exact h
    · exact absurd (Prod.ext hlast hl) hload
  refine ⟨_, exec_sample_of_edge d l i hended hvalid hclk, ?_⟩
  rw [hevents]
  exact ⟨⟨hvalid.symm, rfl, appendRegister_of_le_length_twelve d i hlen, rfl, rfl, rfl⟩, rfl, rfl, rfl, rfl⟩

/-- The word an Append takes at a full register: the 12 newest old entries and the new one. -/
theorem window_append_edgeBit {w : Nat} {sr : List (SerialBit w)} (d : Bool) (i : BitVec w) :
    window (sr ++ [edgeBit d i]) = sr.drop (sr.length - 12) ++ [edgeBit d i] := by
  rw [window, List.length_append, List.length_singleton, Nat.add_sub_add_right,
    List.drop_append_of_le_length (Nat.sub_le ..)]

/-- Settles O27: the gate is open and the load has fallen, so the word event precedes the bit event. -/
theorem loadFallAtFullRegisterEmitsTheWord : Obligations.LoadFallAtFullRegisterEmitsTheWord := by
  intro s d i hended hvalid hclk hlen hlast
  have hevents : appendEvents s.sr s.lastLoad d false i =
      [.wordEv (decodeSerial (s.sr.drop (s.sr.length - 12) ++ [edgeBit d i])), .bitEv (edgeBit d i)] := by
    rcases appendEvents_cases s.sr s.lastLoad d false i with ⟨h, -⟩ | ⟨-, h, -⟩ | ⟨-, -, -, h⟩
    · omega
    · exact absurd ⟨hlast, rfl⟩ h
    · rw [h, window_append_edgeBit d i]
  refine ⟨_, _, exec_sample_of_edge d false i hended hvalid hclk, rfl, ?_⟩
  rw [hevents]
  exact ⟨⟨hvalid.symm, rfl, appendRegister_of_le_length_twelve d i hlen, rfl, rfl, rfl⟩, rfl, rfl, rfl, rfl, rfl⟩

/-- Settles O28: the counter is a bit vector, whose addition wraps at its width. -/
theorem bitCounterWrapsAtEveryWidth : Obligations.BitCounterWrapsAtEveryWidth :=
  fun _ => countBit_toNat

/-- The word an Append takes ends at the new bit's index. -/
theorem emittedAt_of_mem_appendEvents {w : Nat} {sr : List (SerialBit w)} {lastLoad d l : Bool} {i : BitVec w} :
    ∀ e ∈ appendEvents sr lastLoad d l i, emittedAt e = i := by
  rcases appendEvents_cases sr lastLoad d l i with ⟨-, h⟩ | ⟨-, -, h⟩ | ⟨hlen, -, -, h⟩ <;> rw [h]
  · nofun
  · simp [emittedAt, edgeBit]
  · have hend : stopAt (sr.drop (sr.length - 12) ++ [edgeBit d i]) 12 = i := by
      rw [stopAt_eq_getElem_stop (by simp; omega)]
      simp [Nat.sub_sub_self hlen, edgeBit]
    rw [window_append_edgeBit d i]
    exact List.forall_mem_cons.mpr ⟨hend, List.forall_mem_singleton.mpr rfl⟩

/-- Every event a command adds is that of the SAMPLE it is, at the sample's index. -/
theorem commandAt_events {iw cw : Nat} (c : Command iw) (s : StateOf iw cw) :
    ∃ evs, (commandAt c s).events = s.events ++ evs ∧
      (evs = [] ∨ ∃ k d l i, c = .sample k d l i ∧ ∀ e ∈ evs, emittedAt e = i) := by
  rcases commandAt_reset_or_silent_or_append c s with ⟨-, h⟩ | ⟨-, u, hu, h⟩ | ⟨d, l, x, hc, -, -, -, h⟩ <;> rw [h]
  · exact ⟨[], rfl, .inl rfl⟩
  · exact ⟨[], by simp [hu.events], .inl rfl⟩
  · exact ⟨_, rfl, .inr ⟨_, _, _, x, hc, emittedAt_of_mem_appendEvents⟩⟩

/-- Settles O32: only an Append emits, and both its events end at the new bit's index. -/
theorem eventsEndAtTheEmittingEdge : Obligations.EventsEndAtTheEmittingEdge := by
  intro s c d l i
  obtain ⟨evs, hevents, hemitted⟩ := commandAt_events (.sample c d l i) s.toStateOf
  refine ⟨_, evs, exec_eq_after _ s, hevents, ?_⟩
  rcases hemitted with rfl | ⟨_, _, _, _, hc, hall⟩
  · nofun
  · obtain ⟨-, -, -, rfl⟩ := Command.sample.inj hc
    exact hall

/-! ### The bit counter is read by nothing but itself (10_state.md R26) -/

/-- A command's next state without its count does not depend on the count. -/
theorem commandAt_with_bitsSeen {iw cw : Nat} (c : Command iw) (s : StateOf iw cw) (n : BitVec cw) :
    commandAt c { s with bitsSeen := n } =
      { commandAt c s with bitsSeen := (commandAt c { s with bitsSeen := n }).bitsSeen } := by
  cases c with
  | reset => rfl
  | endStream => rfl
  | idle => rfl
  | sample k d l x =>
    simp only [commandAt, sampleAt]
    split
    · rfl
    · split <;> rfl

/-- Settles O33: no update but the counter's own reads the count. -/
theorem decodingNeverReadsTheBitCounter : Obligations.DecodingNeverReadsTheBitCounter :=
  fun i s n => ⟨_, _, exec_eq_after i s, exec_eq_after i _,
    congrArg State.mk (commandAt_with_bitsSeen i.command s.toStateOf n)⟩

end Sys2Proof.Machine

namespace Sys2Proof.Machine

/-! ### The invariant of the states between steps (10_state.md R18 to R28, 20_memory.md R42) -/

section Invariant

variable {w : Nat}

/-- A list in which no word event waits for its bit can be followed by any other such list. -/
theorem pairedEvents_append {es evs : List (Event w)} (hes : pairedEvents es = true)
    (hevs : pairedEvents evs = true) : pairedEvents (es ++ evs) = true := by
  induction es using pairedEvents.induct with
  | case1 => exact hevs
  | case2 b es ih =>
    simp only [pairedEvents, Bool.and_eq_true] at hes
    simp [pairedEvents, hes.1, ih hes.2]
  | case3 o => simp [pairedEvents] at hes
  | case4 o o' es => simp [pairedEvents] at hes
  | case5 o b es ih =>
    simp only [pairedEvents, Bool.and_eq_true] at hes
    simp [pairedEvents, hes.1, ih hes.2]

/-- An Append's word event is followed by the bit event of the same index, which is a point event. -/
theorem pairedEvents_appendEvents (sr : List (SerialBit w)) (lastLoad d l : Bool) (i : BitVec w) :
    pairedEvents (appendEvents sr lastLoad d l i) = true := by
  have hend := emittedAt_of_mem_appendEvents (sr := sr) (lastLoad := lastLoad) (d := d) (l := l) (i := i)
  rcases appendEvents_cases sr lastLoad d l i with ⟨-, h⟩ | ⟨-, -, h⟩ | ⟨-, -, -, h⟩ <;> rw [h] at hend ⊢
  · rfl
  · simp [pairedEvents, edgeBit]
  · have hword := hend _ List.mem_cons_self
    simpa [pairedEvents, edgeBit, emittedAt] using hword

theorem point_of_mem_appendRegister {sr : List (SerialBit w)} {d : Bool} {i : BitVec w}
    (h : ∀ b ∈ sr, b.start = b.stop) : ∀ b ∈ appendRegister sr d i, b.start = b.stop := by
  intro b hb
  have hmem : b ∈ sr ∨ b = edgeBit d i := by
    rcases appendRegister_cases sr d i with ⟨-, hsr⟩ | ⟨-, hsr⟩ <;> rw [hsr] at hb
    · simpa using hb
    · exact (List.mem_append.mp hb).imp List.mem_of_mem_tail List.mem_singleton.mp
  rcases hmem with hb | rfl
  · exact h b hb
  · rfl

/-- An Append emits only at 12 bits held or more, and then the bit event of the new bit. -/
theorem bitEventOf_appendEvents {sr : List (SerialBit w)} {lastLoad d l : Bool} {i : BitVec w}
    (h : (bitEventOf (appendEvents sr lastLoad d l i)).isSome = true) :
    12 ≤ sr.length ∧ bitEventOf (appendEvents sr lastLoad d l i) = some (edgeBit d i) := by
  rcases appendEvents_cases sr lastLoad d l i with ⟨-, he⟩ | ⟨hlen, -, he⟩ | ⟨hlen, -, -, he⟩
  · simp [he] at h
  · exact ⟨hlen, by rw [he, bitEventOf_bitEv_cons]⟩
  · exact ⟨hlen, by rw [he, bitEventOf_wordEv_cons, bitEventOf_bitEv_cons]⟩

/-- An Append that emits a word emits the word its register then holds, at a load level 0, beside a bit event. -/
theorem wordEventOf_appendEvents {sr : List (SerialBit w)} {lastLoad d l : Bool} {i : BitVec w}
    (hle : sr.length ≤ 13) (h : (wordEventOf (appendEvents sr lastLoad d l i)).isSome = true) :
    (bitEventOf (appendEvents sr lastLoad d l i)).isSome = true ∧ l = false ∧
      wordEventOf (appendEvents sr lastLoad d l i) = some (decodeSerial (appendRegister sr d i)) := by
  rcases appendEvents_cases sr lastLoad d l i with ⟨-, he⟩ | ⟨-, -, he⟩ | ⟨hlen, -, hl, he⟩
  · simp [he] at h
  · simp [he] at h
  · refine ⟨by simp [he], hl, ?_⟩
    rw [he, wordEventOf_wordEv_cons, window_append_eq sr d i hlen hle]

end Invariant

theorem State.Inv.latch_nil_clearSession {s : State} (h : s.Inv) :
    State.Inv { toStateOf := s.toStateOf.clearSession.latch [] } where
  length_le := by simp
  points := by simp
  counted := by simp
  fresh := by simp
  bitShown := by simp
  wordShown := by simp
  paired := by simpa using h.paired

theorem State.Inv.latch_nil {s : State} (h : s.Inv) {u : StateOf Config.idxW Config.cntW}
    (hu : s.toStateOf.SilentUpdate u) : State.Inv { toStateOf := u.latch [] } where
  length_le := by simpa [hu.sr] using h.length_le
  points := by simpa [hu.sr] using h.points
  counted := by simpa [hu.sr, hu.bitsSeen] using h.counted
  fresh hvalid := by
    obtain ⟨hvalid', hclk⟩ := hu.clock hvalid
    simpa [hu.sr, hu.lastLoad, hclk] using h.fresh hvalid'
  bitShown := by simp
  wordShown := by simp
  paired := by simpa [hu.events] using h.paired

theorem State.Inv.latch_append {s : State} (h : s.Inv) (hended : s.ended = false) (d l : Bool)
    (i : BitVec Config.idxW) :
    State.Inv { toStateOf :=
      ((s.toStateOf.recordClock true).appendBit d l i).latch (appendEvents s.sr s.lastLoad d l i) } where
  length_le := by
    have hle := h.length_le
    have hlen := appendRegister_length s.sr d i
    exact hlen.trans_le (by split <;> omega)
  points := point_of_mem_appendRegister h.points
  counted hlt := by
    have hlen := appendRegister_length s.sr d i
    have hlt : (appendRegister s.sr d i).length < 13 := hlt
    have hle : s.sr.length ≤ 12 := by split at hlen <;> omega
    calc (countBit s.bitsSeen).toNat
        = (s.bitsSeen.toNat + 1) % 2 ^ Config.cntW := countBit_toNat s.bitsSeen
      _ = (s.sr.length + 1) % 2 ^ Config.cntW := by rw [h.counted (by omega)]
      _ = s.sr.length + 1 := Nat.mod_eq_of_lt (Nat.lt_of_le_of_lt (Nat.succ_le_succ hle) (by decide))
      _ = (appendRegister s.sr d i).length := by rw [hlen, if_pos hle]
  fresh hvalid := absurd hvalid.symm Bool.false_ne_true
  bitShown hshown := by
    obtain ⟨hlen, hbit⟩ := bitEventOf_appendEvents hshown
    have hle := h.length_le
    refine ⟨?_, ?_, rfl, hended⟩
    · exact (appendRegister_length s.sr d i).trans (by split <;> omega)
    · simp only [StateOf.latch_outBit, hbit, Option.getD_some]
      exact appendRegister_getLast? s.sr d i
  wordShown hshown := by
    obtain ⟨hbit, hl, hword⟩ := wordEventOf_appendEvents h.length_le hshown
    refine ⟨hbit, hl, ?_⟩
    simp only [StateOf.latch_outWord, hword, Option.getD_some]
    rfl
  paired := pairedEvents_append h.paired (pairedEvents_appendEvents ..)

theorem State.Inv.after {s : State} (h : s.Inv) (i : Instr) : (s.after i).Inv := by
  unfold State.after
  rcases commandAt_reset_or_silent_or_append i.command s.toStateOf with
    ⟨-, he⟩ | ⟨-, u, hu, he⟩ | ⟨d, l, x, -, hended, -, -, he⟩ <;> rw [he]
  · exact h.latch_nil_clearSession
  · exact h.latch_nil hu
  · exact h.latch_append hended d l x

/-- The invariant says nothing of what the host has still to present. -/
theorem State.Inv.with_inputs {s : State} (h : s.Inv) (inputs : List (PortInput Config.idxW)) :
    State.Inv { s with inputs := inputs } :=
  { h with }

/-- Settles O44: after reset the register and the event list are empty and no event is presented. -/
theorem invariantHoldsAtReset : Obligations.InvariantHoldsAtReset where
  length_le := by decide
  points := nofun
  counted _ := rfl
  fresh _ := ⟨rfl, rfl, rfl⟩
  bitShown := nofun
  wordShown := nofun
  paired := rfl

/-- Settles O45: a step that answers has run one command, and RESET, a silent command and an Append each keep the
invariant. -/
theorem everyStepKeepsTheInvariant : Obligations.EveryStepKeepsTheInvariant := by
  intro s t hinv hstep
  obtain ⟨iw, idx, rest, -, hexec⟩ := step_next hstep
  rw [exec_eq_after] at hexec
  obtain rfl := Host.Outcome.next.inj hexec
  exact (hinv.with_inputs rest).after _

/-! ### Renaming the sample indices (00_scope.md R8, 30_encoding.md R51) -/

section Renaming

variable {w w' : Nat} (f : BitVec w → BitVec w')

theorem relabelBit_edgeBit (d : Bool) (i : BitVec w) : relabelBit f (edgeBit d i) = edgeBit d (f i) := rfl

theorem appendRegister_map (sr : List (SerialBit w)) (d : Bool) (i : BitVec w) :
    appendRegister (sr.map (relabelBit f)) d (f i) = (appendRegister sr d i).map (relabelBit f) := by
  rcases appendRegister_cases sr d i with ⟨hlen, h⟩ | ⟨hlen, h⟩ <;> rw [h, List.map_append, List.map_singleton,
    relabelBit_edgeBit]
  · rw [appendRegister_of_length_le d (f i) (by rwa [List.length_map])]
  · rw [appendRegister_of_le_length d (f i) (by rwa [List.length_map]), List.map_tail]

theorem window_map (sr : List (SerialBit w)) : window (sr.map (relabelBit f)) = (window sr).map (relabelBit f) := by
  rw [window, window, List.length_map, List.map_drop]

/-- The level at a position does not depend on the indices, even where the word has no entry. -/
theorem bitAt_map (word : List (SerialBit w)) (p : Nat) : bitAt (word.map (relabelBit f)) p = bitAt word p := by
  simp only [bitAt, entryAt, List.getD_eq_getElem?_getD, List.getElem?_map]
  cases word[p]? <;> rfl

theorem entryAt_map {word : List (SerialBit w)} {p : Nat} (hp : p < word.length) :
    entryAt (word.map (relabelBit f)) p = relabelBit f (entryAt word p) := by
  rw [entryAt_eq_getElem (by rwa [List.length_map]), entryAt_eq_getElem hp, List.getElem_map]

/-- The decoder computes with the levels only; of the indices it makes spans. -/
theorem decodeSerial_map {word : List (SerialBit w)} (h : word.length = 13) :
    decodeSerial (word.map (relabelBit f)) = relabelWord f (decodeSerial word) := by
  have hlevels : bitAt (word.map (relabelBit f)) = bitAt word := funext (bitAt_map f word)
  have hentry {p : Nat} (hp : p < 13) : entryAt (word.map (relabelBit f)) p = relabelBit f (entryAt word p) :=
    entryAt_map f (h ▸ hp)
  simp only [decodeSerial, relabelWord, wordValue, mantField, expField, mantissa, hlevels, startAt, stopAt,
    hentry (show 0 < 13 by decide), hentry (show 9 < 13 by decide), hentry (show 10 < 13 by decide),
    hentry (show 12 < 13 by decide), relabelBit]

theorem appendEvents_map (sr : List (SerialBit w)) (lastLoad d l : Bool) (i : BitVec w) :
    appendEvents (sr.map (relabelBit f)) lastLoad d l (f i) =
      (appendEvents sr lastLoad d l i).map (relabelEvent f) := by
  have hheld : sr.map (relabelBit f) ++ [edgeBit d (f i)] = (sr ++ [edgeBit d i]).map (relabelBit f) := by
    rw [List.map_append, List.map_singleton, relabelBit_edgeBit]
  have hgate : fullGate ((sr ++ [edgeBit d i]).map (relabelBit f)) = fullGate (sr ++ [edgeBit d i]) := by
    rw [fullGate, fullGate, List.length_map]
  rw [appendEvents, appendEvents, hheld, hgate, window_map]
  split
  case isTrue hfull =>
    have hword := decodeSerial_map f (window_length (of_decide_eq_true hfull))
    rw [hword]
    split <;> rfl
  case isFalse => rfl

theorem bitEventOf_map (evs : List (Event w)) :
    bitEventOf (evs.map (relabelEvent f)) = (bitEventOf evs).map (relabelBit f) := by
  induction evs with
  | nil => rfl
  | cons e es ih =>
    cases e with
    | wordEv o => exact ih
    | bitEv b => rfl

theorem wordEventOf_map (evs : List (Event w)) :
    wordEventOf (evs.map (relabelEvent f)) = (wordEventOf evs).map (relabelWord f) := by
  induction evs with
  | nil => rfl
  | cons e es ih =>
    cases e with
    | wordEv o => rfl
    | bitEv b => exact ih

/-- A data register whose valid bit is 1 holds the event, whatever the free value is. -/
theorem getD_map_of_isSome {α β : Type} (g : α → β) {o : Option α} (h : o.isSome = true) (a : α) (b : β) :
    (o.map g).getD b = g (o.getD a) := by
  obtain ⟨x, rfl⟩ := Option.isSome_iff_exists.mp h
  rfl

variable {f} {cw cw' : Nat} {s : StateOf w cw} {s' : StateOf w' cw'}

theorem Renamed.clearSession (h : Renamed f s s') : Renamed f s.clearSession s'.clearSession where
  prevValid := rfl
  prevClk := rfl
  sr := rfl
  lastLoad := rfl
  bitsSeen := by simp
  ended := rfl
  outBitValid := h.outBitValid
  outBit := h.outBit
  outWordValid := h.outWordValid
  outWord := h.outWord
  events := h.events

theorem Renamed.setEnded (h : Renamed f s s') : Renamed f s.setEnded s'.setEnded :=
  { h with ended := rfl }

theorem Renamed.recordClock (h : Renamed f s s') (c : Bool) : Renamed f (s.recordClock c) (s'.recordClock c) :=
  { h with prevValid := rfl, prevClk := rfl }

/-- Counting commutes with the cut to a narrower counter. -/
theorem countBit_toNat_mod (hcw : cw' ≤ cw) {n : BitVec cw} {n' : BitVec cw'}
    (h : n'.toNat = n.toNat % 2 ^ cw') : (countBit n').toNat = (countBit n).toNat % 2 ^ cw' := by
  rw [countBit_toNat, countBit_toNat, h, Nat.mod_mod_of_dvd _ (Nat.pow_dvd_pow 2 hcw), Nat.mod_add_mod]

theorem Renamed.appendBit (h : Renamed f s s') (hcw : cw' ≤ cw) (d l : Bool) (i : BitVec w) :
    Renamed f (s.appendBit d l i) (s'.appendBit d l (f i)) :=
  { h with
    sr := by
      simp only [StateOf.appendBit_sr, h.sr]
      exact appendRegister_map f s.sr d i
    lastLoad := rfl
    bitsSeen := countBit_toNat_mod hcw h.bitsSeen }

theorem Renamed.latch (h : Renamed f s s') (evs : List (Event w)) :
    Renamed f (s.latch evs) (s'.latch (evs.map (relabelEvent f))) where
  prevValid := h.prevValid
  prevClk := h.prevClk
  sr := h.sr
  lastLoad := h.lastLoad
  bitsSeen := h.bitsSeen
  ended := h.ended
  outBitValid := by simp [bitEventOf_map]
  outBit hvalid := by
    simp only [StateOf.latch_outBit, bitEventOf_map]
    exact getD_map_of_isSome _ hvalid _ _
  outWordValid := by simp [wordEventOf_map]
  outWord hvalid := by
    simp only [StateOf.latch_outWord, wordEventOf_map]
    exact getD_map_of_isSome _ hvalid _ _
  events := by simp [h.events]

theorem Renamed.sampleAt (h : Renamed f s s') (hcw : cw' ≤ cw) (c d l : Bool) (i : BitVec w) :
    Renamed f (sampleAt c d l i s) (sampleAt c d l (f i) s') := by
  rw [Machine.sampleAt, Machine.sampleAt, h.ended, h.prevValid, h.prevClk, h.sr, h.lastLoad]
  split
  · exact h.latch []
  · split
    · rw [appendEvents_map]
      exact ((h.recordClock c).appendBit hcw d l i).latch _
    · exact (h.recordClock c).latch []

theorem Renamed.commandAt (h : Renamed f s s') (hcw : cw' ≤ cw) (c : Command w) :
    Renamed f (commandAt c s) (commandAt (relabelCommand f c) s') := by
  cases c with
  | reset => exact h.clearSession.latch []
  | endStream => exact h.setEnded.latch []
  | sample c d l i => exact h.sampleAt hcw c d l i
  | idle => exact h.latch []

theorem renamed_resetAt (f : BitVec w → BitVec w') (cw cw' : Nat) :
    Renamed f (resetAt w cw) (resetAt w' cw') where
  prevValid := rfl
  prevClk := rfl
  sr := rfl
  lastLoad := rfl
  bitsSeen := by simp [resetAt]
  ended := rfl
  outBitValid := rfl
  outBit := nofun
  outWordValid := rfl
  outWord := nofun
  events := rfl

end Renaming

/-- Settles O34: an Append copies its index into the new entry, and the decoder copies entries' indices into spans. -/
theorem indicesAreOnlyCopied : Obligations.IndicesAreOnlyCopied :=
  fun _ _ f sr lastLoad d l i => ⟨appendRegister_map f sr d i, appendEvents_map f sr lastLoad d l i⟩

/-- Settles O53: each named update keeps two states related, and every command is a chain of them. -/
theorem widthsOnlyRenameIndicesAndCutTheCounter : Obligations.WidthsOnlyRenameIndicesAndCutTheCounter :=
  fun _ _ cw cw' f hcw => ⟨renamed_resetAt f cw cw', fun c _ _ h => h.commandAt hcw c⟩

end Sys2Proof.Machine

namespace Sys2Proof.Machine

/-! ### The abstract model (10_state.md R34) -/

/-- The abstract Append, in the terms of the machine's own. -/
theorem Abs.append_eq (a : Abs) (d l : Bool) (i : BitVec Config.idxW) :
    a.append d l i =
      ({ a with sr := appendRegister a.sr d i, bitsSeen := countBit a.bitsSeen, lastLoad := l },
        appendEvents a.sr a.lastLoad d l i) := by
  have hedge : ({ value := d, start := i, stop := i } : SerialBit Config.idxW) = edgeBit d i := rfl
  unfold Abs.append
  simp only [hedge, gt_iff_lt, List.drop_one]
  split
  case isTrue hfull =>
    have hlen : 12 ≤ a.sr.length := by simpa [Nat.lt_succ_iff] using hfull
    refine Prod.ext ?_ ?_
    · simp only [appendRegister, evict, countBit, gt_iff_lt]
    · simp [appendEvents, fullGate, loadFalls, window, hlen]
  case isFalse hfilling =>
    have hlen : a.sr.length < 12 := by simpa using hfilling
    simp [appendRegister_of_length_le d i (Nat.le_of_lt hlen), appendEvents, fullGate, hlen, countBit]

theorem Abs.step_sample_of_ended {a : Abs} (h : a.ended = true) (c d l : Bool) (i : BitVec Config.idxW) :
    a.step (.sample c d l i) = (a, []) := if_pos h

theorem Abs.step_sample_of_not_edge {a : Abs} {c : Bool} (hended : a.ended = false)
    (hedge : ¬(a.hist = some false ∧ c = true)) (d l : Bool) (i : BitVec Config.idxW) :
    a.step (.sample c d l i) = ({ a with hist := some c }, []) := by
  rw [Abs.step, if_neg (by simp [hended]), if_neg hedge]

theorem Abs.step_sample_of_edge {a : Abs} (hended : a.ended = false) (hhist : a.hist = some false) (d l : Bool)
    (i : BitVec Config.idxW) : a.step (.sample true d l i) = { a with hist := some true }.append d l i := by
  rw [Abs.step, if_neg (by simp [hended]), if_pos ⟨hhist, rfl⟩]

/-- `hist` shows a low clock exactly where the edge sampler sees one. -/
theorem absOf_hist_eq_some_false_iff (s : State) :
    (absOf s).hist = some false ↔ s.prevValid = true ∧ s.prevClk = false := by
  simp [absOf]

/-- One command, seen through `absOf`. -/
theorem absOf_after (s : State) (i : Instr) :
    absOf (s.after i) = ((absOf s).step i).1 ∧ (s.after i).events = s.events ++ ((absOf s).step i).2 := by
  cases i with
  | reset => exact ⟨rfl, rfl⟩
  | endStream => exact ⟨rfl, rfl⟩
  | idle => exact ⟨rfl, rfl⟩
  | sample c d l x =>
    simp only [State.after, Instr.command, commandAt]
    cases hended : s.ended with
    | true =>
      rw [Abs.step_sample_of_ended (a := absOf s) hended, sampleAt, if_pos hended]
      exact ⟨rfl, rfl⟩
    | false =>
      by_cases hedge : (absOf s).hist = some false ∧ c = true
      · obtain ⟨hhist, rfl⟩ := hedge
        obtain ⟨hvalid, hclk⟩ := (absOf_hist_eq_some_false_iff s).mp hhist
        rw [Abs.step_sample_of_edge (a := absOf s) hended hhist, Abs.append_eq,
          sampleAt_of_edge d l x hended hvalid hclk]
        exact ⟨rfl, rfl⟩
      · rw [Abs.step_sample_of_not_edge (a := absOf s) hended hedge]
        rw [absOf_hist_eq_some_false_iff, and_assoc] at hedge
        rw [sampleAt_of_not_edge c d l x hended hedge]
        exact ⟨rfl, rfl⟩

/-- Settles O46: `absOf` commutes with every command, and the abstract Append is the machine's. -/
theorem execRefinesTheAbstractModel : Obligations.ExecRefinesTheAbstractModel :=
  fun i s => ⟨_, exec_eq_after i s, absOf_after s i⟩

/-- Settles O24: the abstract state drops `prev_clk` while `prev_valid` is 0, and decides what a command does. -/
theorem clockHistoryUnreadBeforeFirstSample : Obligations.ClockHistoryUnreadBeforeFirstSample := by
  intro s b i hvalid
  have habs : absOf { s with prevClk := b } = absOf s := by simp [absOf, hvalid]
  obtain ⟨hstate, hevents⟩ := absOf_after s i
  obtain ⟨hstate', hevents'⟩ := absOf_after { s with prevClk := b } i
  rw [habs] at hstate' hevents'
  exact ⟨_, _, exec_eq_after i s, exec_eq_after i _, hstate.trans hstate'.symm, hevents.trans hevents'.symm⟩

/-! ### Runs of presented commands (10_state.md R13, 70_reset_and_hazards.md R130) -/

/-- The state after a list of commands. -/
def State.afterAll (s : State) (cs : List Instr) : State := cs.foldl State.after s

/-- The abstract state after a list of commands, and all events they emit. -/
def Abs.run (a : Abs) : List Instr → Abs × List (Event Config.idxW)
  | [] => (a, [])
  | c :: cs => (((a.step c).1.run cs).1, (a.step c).2 ++ ((a.step c).1.run cs).2)

theorem Abs.run_append (a : Abs) (cs cs' : List Instr) :
    a.run (cs ++ cs') = (((a.run cs).1.run cs').1, (a.run cs).2 ++ ((a.run cs).1.run cs').2) := by
  induction cs generalizing a with
  | nil => rfl
  | cons c cs ih => simp [Abs.run, ih, List.append_assoc]

theorem Abs.run_singleton (a : Abs) (c : Instr) : a.run [c] = a.step c := by
  simp [Abs.run]

theorem absOf_afterAll (s : State) (cs : List Instr) :
    absOf (s.afterAll cs) = ((absOf s).run cs).1 ∧
      (s.afterAll cs).events = s.events ++ ((absOf s).run cs).2 := by
  induction cs generalizing s with
  | nil => exact ⟨rfl, (List.append_nil _).symm⟩
  | cons c cs ih =>
    obtain ⟨hstate, hevents⟩ := absOf_after s c
    obtain ⟨hstate', hevents'⟩ := ih (s.after c)
    rw [hstate] at hstate' hevents'
    exact ⟨hstate', by rw [hevents, List.append_assoc] at hevents'; exact hevents'⟩

/-- No command reads or writes what the host has still to present. -/
theorem commandAt_with_inputs {iw cw : Nat} (c : Command iw) (s : StateOf iw cw) (inputs : List (PortInput iw)) :
    commandAt c { s with inputs := inputs } = { commandAt c s with inputs := inputs } := by
  cases c with
  | reset => rfl
  | endStream => rfl
  | idle => rfl
  | sample k d l x =>
    simp only [commandAt, sampleAt]
    split
    · rfl
    · split <;> rfl

theorem after_presenting (s : State) (c : Instr) (cs : List Instr) :
    (s.presenting cs).after c = (s.after c).presenting cs :=
  congrArg State.mk (commandAt_with_inputs c.command s.toStateOf (cs.map encode))

theorem step_presenting (s : State) (c : Instr) (cs : List Instr) :
    step (s.presenting (c :: cs)) = .next ((s.after c).presenting cs) := by
  have hstep := step_of_decode (s := s.presenting (c :: cs)) rfl (decode_encode c)
  rw [hstep, exec_eq_after, ← after_presenting]
  rfl

theorem run_succ_of_step {M : Host.Core} {k : Nat} {s s' : M.State} (h : M.step s = .next s') :
    M.run (k + 1) s = M.run k s' := by
  rw [Host.Core.run, h]

/-- The machine runs a presented list of commands to its end. -/
theorem run_presenting (s : State) (cs : List Instr) :
    core.run cs.length (s.presenting cs) = .next ((s.afterAll cs).presenting []) := by
  induction cs generalizing s with
  | nil => rfl
  | cons c cs ih =>
    have hstep : core.step (s.presenting (c :: cs)) = .next ((s.after c).presenting cs) := step_presenting s c cs
    exact (run_succ_of_step hstep).trans (ih (s.after c))

/-- A run of presented commands completes, and is the abstract run of the commands. -/
theorem run_refines (s : State) (cs : List Instr) :
    ∃ t, core.run cs.length (s.presenting cs) = .next t ∧ absOf t = ((absOf s).run cs).1 ∧
      t.events = s.events ++ ((absOf s).run cs).2 := by
  obtain ⟨hstate, hevents⟩ := absOf_afterAll s cs
  exact ⟨_, run_presenting s cs, hstate, hevents⟩

/-- The abstract state after RESET, the same whatever came before (70_reset_and_hazards.md R119). -/
def Abs.fresh : Abs := { hist := none, sr := [], lastLoad := false, bitsSeen := 0, ended := false }

theorem Abs.run_reset (a : Abs) (cs : List Instr) : a.run (.reset :: cs) = Abs.fresh.run cs := rfl

/-- Settles O13: after RESET both runs are the abstract run from the one fresh state. -/
theorem nothingCarriesOverAReset : Obligations.NothingCarriesOverAReset := by
  intro s s' cs
  obtain ⟨t, hrun, hstate, hevents⟩ := run_refines s (.reset :: cs)
  obtain ⟨t', hrun', hstate', hevents'⟩ := run_refines s' (.reset :: cs)
  exact ⟨t, t', (Abs.fresh.run cs).2, hrun, hrun', hevents, hevents', hstate.trans hstate'.symm⟩

/-- IDLE is no step of the abstract model. -/
theorem Abs.run_filter_idle (a : Abs) (cs : List Instr) : a.run (cs.filter (· ≠ .idle)) = a.run cs := by
  induction cs generalizing a with
  | nil => rfl
  | cons c cs ih =>
    by_cases hc : c = .idle
    · subst hc
      exact ih a
    · rw [List.filter_cons_of_pos (by simpa using hc), Abs.run, Abs.run, ih]

/-- Settles O49: both runs are the abstract run of the commands without their IDLEs. -/
theorem idleCyclesDoNotMatter : Obligations.IdleCyclesDoNotMatter := by
  intro s cs cs' hfilter
  obtain ⟨t, hrun, hstate, hevents⟩ := run_refines s cs
  obtain ⟨t', hrun', hstate', hevents'⟩ := run_refines s cs'
  have habs : (absOf s).run cs = (absOf s).run cs' := by
    rw [← Abs.run_filter_idle _ cs, hfilter, Abs.run_filter_idle]
  rw [habs] at hstate hevents
  exact ⟨t, t', hrun, hrun', hevents.trans hevents'.symm, hstate.trans hstate'.symm⟩

/-- The abstract step emits only at a SAMPLE, at the sample's index. -/
theorem Abs.emittedAt_of_mem_step {a : Abs} {c : Instr} {e : Event Config.idxW} (he : e ∈ (a.step c).2) :
    sampleIndex c = some (emittedAt e).toNat := by
  cases c with
  | reset => exact absurd he List.not_mem_nil
  | endStream => exact absurd he List.not_mem_nil
  | idle => exact absurd he List.not_mem_nil
  | sample c d l i =>
    simp only [Abs.step] at he
    split at he
    · exact absurd he List.not_mem_nil
    · split at he
      · rw [Abs.append_eq] at he
        rw [emittedAt_of_mem_appendEvents e he, sampleIndex]
      · exact absurd he List.not_mem_nil

theorem Abs.emittedAt_of_mem_run {a : Abs} {cs : List Instr} {e : Event Config.idxW} (he : e ∈ (a.run cs).2) :
    (emittedAt e).toNat ∈ cs.filterMap sampleIndex := by
  induction cs generalizing a with
  | nil => exact absurd he List.not_mem_nil
  | cons c cs ih =>
    rcases List.mem_append.mp he with he | he
    · exact List.mem_filterMap.mpr ⟨c, List.mem_cons_self, Abs.emittedAt_of_mem_step he⟩
    · obtain ⟨c', hc', hindex⟩ := List.mem_filterMap.mp (ih he)
      exact List.mem_filterMap.mpr ⟨c', List.mem_cons_of_mem _ hc', hindex⟩

/-- Ordered sample indices give ordered events. -/
theorem Abs.run_events_pairwise (a : Abs) (cs : List Instr) (h : (cs.filterMap sampleIndex).Pairwise (· ≤ ·)) :
    (a.run cs).2.Pairwise fun e e' => (emittedAt e).toNat ≤ (emittedAt e').toNat := by
  induction cs generalizing a with
  | nil => exact .nil
  | cons c cs ih =>
    have hcs : (cs.filterMap sampleIndex).Pairwise (· ≤ ·) := h.sublist ((List.sublist_cons_self c cs).filterMap _)
    refine List.pairwise_append.mpr ⟨?_, ih _ hcs, fun e he e' he' => ?_⟩
    · refine List.pairwise_iff_forall_sublist.mpr fun {e e'} hsub => ?_
      have hmem := Abs.emittedAt_of_mem_step (hsub.subset List.mem_cons_self)
      have hmem' := Abs.emittedAt_of_mem_step (hsub.subset (List.mem_cons_of_mem _ List.mem_cons_self))
      exact (Option.some.inj (hmem.symm.trans hmem')).le
    · rw [List.filterMap_cons_some (Abs.emittedAt_of_mem_step he)] at h
      exact List.rel_of_pairwise_cons h (Abs.emittedAt_of_mem_run he')

/-- Settles O51: each step's events carry the index of its own sample. -/
theorem eventsInIndexOrder : Obligations.EventsInIndexOrder := by
  intro s cs hsorted
  obtain ⟨t, hrun, -, hevents⟩ := run_refines s cs
  exact ⟨t, _, hrun, hevents, List.pairwise_map.mpr (Abs.run_events_pairwise (absOf s) cs hsorted)⟩

/-! ### The reset value of `last_load` (41_shift_register.md R82) -/

/-- `a` and `a'` differ at most in a load level that no edge of the session has captured. -/
def Abs.SameButUnreadLoad (a a' : Abs) : Prop :=
  a = a' ∨ (a.sr = [] ∧ a' = { a with lastLoad := a'.lastLoad })

/-- The first edge captures its own load level over the unread one, and is too early to emit. -/
theorem Abs.SameButUnreadLoad.step {a a' : Abs} (h : a.SameButUnreadLoad a') (c : Instr) :
    (a.step c).1.SameButUnreadLoad (a'.step c).1 ∧ (a.step c).2 = (a'.step c).2 := by
  rcases h with rfl | ⟨hsr, hload⟩
  · exact ⟨.inl rfl, rfl⟩
  · rw [hload]
    cases c with
    | reset => exact ⟨.inl rfl, rfl⟩
    | endStream => exact ⟨.inr ⟨hsr, rfl⟩, rfl⟩
    | idle => exact ⟨.inr ⟨hsr, rfl⟩, rfl⟩
    | sample c d l i =>
      simp only [Abs.step]
      split
      · exact ⟨.inr ⟨hsr, rfl⟩, rfl⟩
      · split
        · rw [Abs.append_eq, Abs.append_eq]
          exact ⟨.inl rfl, by simp [hsr, appendEvents, fullGate]⟩
        · exact ⟨.inr ⟨hsr, rfl⟩, rfl⟩

theorem Abs.SameButUnreadLoad.run_events {a a' : Abs} (h : a.SameButUnreadLoad a') (cs : List Instr) :
    (a.run cs).2 = (a'.run cs).2 := by
  induction cs generalizing a a' with
  | nil => rfl
  | cons c cs ih =>
    obtain ⟨hstate, hevents⟩ := h.step c
    rw [Abs.run, Abs.run, hevents, ih hstate]

/-- Settles O50: with the register empty the load level is unread until an edge has overwritten it. -/
theorem resetLoadLevelIsNeverRead : Obligations.ResetLoadLevelIsNeverRead := by
  intro b cs
  obtain ⟨t, hrun, -, hevents⟩ := run_refines State.reset cs
  obtain ⟨t', hrun', -, hevents'⟩ := run_refines { State.reset with lastLoad := b } cs
  have hsame : (absOf State.reset).SameButUnreadLoad (absOf { State.reset with lastLoad := b }) :=
    .inr ⟨rfl, rfl⟩
  exact ⟨t, t', hrun, hrun', by rw [hevents, hevents', hsame.run_events cs]⟩

end Sys2Proof.Machine

namespace Sys2Proof.Machine

/-! ### The fields of a word as numbers (30_encoding.md R55 to R57) -/

/-- A sum of levels at their places is the number with those bits. -/
theorem sum_range_toNat_mul_two_pow (f : Nat → Bool) (n : Nat) :
    ((List.range n).map fun p => (f p).toNat * 2 ^ p).sum = Nat.ofBits fun p : Fin n => f p := by
  induction n generalizing f with
  | zero => rfl
  | succ n ih =>
    have hterm (p : Nat) : (f (p + 1)).toNat * 2 ^ (p + 1) = 2 * ((f (p + 1)).toNat * 2 ^ p) := by
      rw [pow_succ]
      ring
    rw [List.range_succ_eq_map, List.map_cons, List.map_map, List.sum_cons, Nat.ofBits_succ]
    simp only [Function.comp_def, hterm, List.sum_map_mul_left, ih fun p => f (p + 1), pow_zero, mul_one]
    exact Nat.add_comm _ _

section Fields

variable {w : Nat} (word : List (SerialBit w))

theorem wordValue_eq_ofBits : wordValue word = Nat.ofBits fun p : Fin 13 => bitAt word p :=
  sum_range_toNat_mul_two_pow (bitAt word) 13

theorem expField_eq_ofBits : expField word = Nat.ofBits fun j : Fin 3 => bitAt word (10 + j) :=
  sum_range_toNat_mul_two_pow (fun j => bitAt word (10 + j)) 3

/-- Position 0 is the most significant bit of `M` (90_conflicts.md C1), so the positions stand in reverse. -/
theorem mantField_eq_ofBits : mantField word = Nat.ofBits fun j : Fin 10 => bitAt word (9 - j) := by
  rw [← sum_range_toNat_mul_two_pow (fun j => bitAt word (9 - j)) 10, mantField, ← List.sum_reverse,
    ← List.map_reverse, List.range_eq_range' (n := Config.mantLen), List.reverse_range', List.map_map]
  refine congrArg List.sum (List.map_congr_left fun j hj => ?_)
  have hj : j < 10 := List.mem_range.mp hj
  simp only [Function.comp_apply, Config.mantLen]
  congr 2
  omega

theorem mantField_le : mantField word ≤ 1023 := by
  rw [mantField_eq_ofBits]
  exact Nat.le_of_lt_succ (Nat.ofBits_lt_two_pow _)

theorem expField_le : expField word ≤ 7 := by
  rw [expField_eq_ofBits]
  exact Nat.le_of_lt_succ (Nat.ofBits_lt_two_pow _)

theorem wordBits_getLsbD {p : Nat} (hp : p < 13) : (decodeSerial word).wordBits.getLsbD p = bitAt word p := by
  simp only [decodeSerial, wordValue_eq_ofBits, BitVec.getLsbD_ofNat, hp, decide_true, Bool.true_and,
    Nat.testBit_ofBits_lt _ _ hp]

theorem wordMant_getLsbD {i : Nat} (hi : i < 10) : (decodeSerial word).wordMant.getLsbD (9 - i) = bitAt word i := by
  have hlt : 9 - i < 10 := by omega
  simp only [decodeSerial, mantField_eq_ofBits, BitVec.getLsbD_ofNat, hlt, decide_true, Bool.true_and,
    Nat.testBit_ofBits_lt _ _ hlt, Nat.sub_sub_self (Nat.le_of_lt_succ hi)]

theorem wordExp_getLsbD {j : Nat} (hj : j < 3) : (decodeSerial word).wordExp.getLsbD j = bitAt word (10 + j) := by
  simp only [decodeSerial, expField_eq_ofBits, BitVec.getLsbD_ofNat, hj, decide_true, Bool.true_and,
    Nat.testBit_ofBits_lt _ _ hj]

theorem wordMant_toNat : (decodeSerial word).wordMant.toNat = mantField word := by
  rw [decodeSerial, BitVec.toNat_ofNat, Nat.mod_eq_of_lt (Nat.lt_succ_of_le (mantField_le word))]

theorem wordExp_toNat : (decodeSerial word).wordExp.toNat = expField word := by
  rw [decodeSerial, BitVec.toNat_ofNat, Nat.mod_eq_of_lt (Nat.lt_succ_of_le (expField_le word))]

end Fields

/-- Settles O36: each port's number is made of the levels of its positions, and the port has room for it. -/
theorem wordPortsCarryTheFields : Obligations.WordPortsCarryTheFields :=
  fun _ word => ⟨fun _ => wordBits_getLsbD word, fun _ => wordMant_getLsbD word, fun _ => wordExp_getLsbD word,
    wordMant_toNat word, wordExp_toNat word⟩

/-! ### The reconstruction's closed forms (42_word_decoder.md R90, R94, R96) -/

section ClosedForms

variable {w : Nat} (word : List (SerialBit w))

theorem twoPowNeg_eq (k : Nat) : twoPowNeg k = 1 / 2 ^ k := by
  simp [twoPowNeg, Rat.mkRat_eq_div]

theorem bitRat_eq (b : Bool) : bitRat b = (b.toNat : Rat) := by
  cases b <;> rfl

/-- The bit weights of R89 are those of `M`, scaled by `2^-9`. -/
theorem sum_bitRat_mul_twoPowNeg :
    ((List.range 10).map fun i => bitRat (bitAt word i) * twoPowNeg i).sum = (mantField word : Rat) / 512 := by
  rw [eq_div_iff (by norm_num), ← List.sum_map_mul_right, mantField, Nat.cast_list_sum, List.map_map]
  refine congrArg List.sum (List.map_congr_left fun i hi => ?_)
  have hpow : (2 : Rat) ^ (9 - i) * 2 ^ i = 512 := by
    rw [← pow_add, Nat.sub_add_cancel (Nat.le_of_lt_succ (List.mem_range.mp hi))]
    norm_num
  simp only [Function.comp_apply, Config.mantLen, bitRat_eq, twoPowNeg_eq, ← hpow]
  push_cast
  field_simp

theorem mantissa_eq : mantissa word = (2 * (mantField word : Rat) - 1023) / 1024 := by
  have hbias : Config.bias = 1 / 1024 := by norm_num [Config.bias, Rat.mkRat_eq_div]
  rw [mantissa, sum_bitRat_mul_twoPowNeg, hbias]
  ring

/-- `2M` is even, so `2M - 1023` is never 0. -/
theorem two_mul_cast_sub_ne_zero (m : Nat) : 2 * (m : Rat) - 1023 ≠ 0 := by
  intro h
  have : 2 * m = 1023 := by exact_mod_cast sub_eq_zero.mp h
  omega

theorem vout_eq (e : Nat) :
    vout (mantissa word) e = 5 / 2 + 5 * (2 * (mantField word : Rat) - 1023) / (2 ^ (22 + e) : Nat) := by
  have hscale : Config.vscale = 1 / 1024 := by norm_num [Config.vscale, Rat.mkRat_eq_div]
  rw [vout, mantissa_eq, hscale, twoPowNeg_eq, Config.vin, pow_add]
  push_cast
  field_simp
  ring

end ClosedForms

/-- Settles O37: the closed form is monotone in `M`, which is at most 1023, and its numerator is odd. -/
theorem mantissaClosedForm : Obligations.MantissaClosedForm := by
  intro w word
  have hle : (mantField word : Rat) ≤ 1023 := by exact_mod_cast mantField_le word
  have hnonneg : (0 : Rat) ≤ mantField word := Nat.cast_nonneg _
  refine ⟨mantissa_eq word, mantField_le word, ?_, ?_, ?_⟩ <;> rw [mantissa_eq]
  · exact div_ne_zero (two_mul_cast_sub_ne_zero _) (by norm_num)
  · linarith
  · linarith

/-- The part of `vout` above `vin/2` is within the bounds it has at exponent 0. -/
theorem abs_div_two_pow_le {n : Rat} (hn : |n| ≤ 1023) (e : Nat) :
    |5 * n / ((2 ^ (22 + e) : Nat) : Rat)| ≤ 5115 / 4194304 := by
  have hpow : (4194304 : Rat) ≤ ((2 ^ (22 + e) : Nat) : Rat) := by
    exact_mod_cast (Nat.pow_le_pow_right (by decide) (Nat.le_add_right 22 e) : 2 ^ 22 ≤ 2 ^ (22 + e))
  rw [abs_div, abs_mul, Nat.abs_cast, abs_of_pos (by norm_num : (0 : Rat) < 5)]
  exact div_le_div₀ (by norm_num) (by linarith) (by norm_num) hpow

/-- Settles O38: `vout` is `5/2` and a part that is an odd multiple of a power of two, largest at exponent 0. -/
theorem outputVoltageClosedForm : Obligations.OutputVoltageClosedForm := by
  intro w word
  have hle : (mantField word : Rat) ≤ 1023 := by exact_mod_cast mantField_le word
  have hnonneg : (0 : Rat) ≤ mantField word := Nat.cast_nonneg _
  have hpart := abs_le.mp (abs_div_two_pow_le (n := 2 * (mantField word : Rat) - 1023)
    (abs_le.mpr ⟨by linarith, by linarith⟩) (expField word))
  refine ⟨vout_eq word _, expField_le word, ?_, ?_, ?_⟩ <;> rw [vout_eq]
  · simp [two_mul_cast_sub_ne_zero]
  · linarith [hpart.1]
  · linarith [hpart.2]

/-! ### The normalized output (42_word_decoder.md R95, R96) -/

/-- Rounding a quotient of natural numbers toward zero is their integer division. -/
theorem trunc_natCast_div (n d : Nat) : trunc ((n : Rat) / d) = (n / d : Nat) := by
  have hnonneg : 0 ≤ ((n : Rat) / d).num := Rat.num_nonneg.mpr (by positivity)
  rw [trunc, Int.tdiv_eq_ediv_of_nonneg hnonneg, ← Rat.floor_def', Rat.floor_natCast_div_natCast,
    Int.natCast_ediv]

/-- R96's shift, before it is cut to 16 bits. -/
theorem normalized_vout {w : Nat} (word : List (SerialBit w)) (e : Nat) :
    normalized (vout (mantissa word) e) =
      ((65535 * (2 ^ (20 + e) + 2 * mantField word - 1023)) >>> (21 + e) : Nat) := by
  have hle : 1023 ≤ 2 ^ (20 + e) + 2 * mantField word :=
    Nat.le_add_right_of_le (Nat.le_trans (by decide) (Nat.pow_le_pow_right (by decide) (Nat.le_add_right 20 e)))
  rw [Nat.shiftRight_eq_div_pow, ← trunc_natCast_div, normalized, vout_eq, Config.vin, Config.normScale]
  push_cast [Nat.cast_sub hle]
  congr 1
  rw [pow_add, pow_add, pow_add]
  field_simp
  ring

theorem shiftRight_bounds {m e : Nat} (hm : m ≤ 1023) (he : e ≤ 7) :
    32735 ≤ (65535 * (2 ^ (20 + e) + 2 * m - 1023)) >>> (21 + e) ∧
      (65535 * (2 ^ (20 + e) + 2 * m - 1023)) >>> (21 + e) ≤ 32799 := by
  rw [Nat.shiftRight_eq_div_pow]
  interval_cases e <;> omega

/-- Settles O39: R96's shift is below `2^16`, so nothing wraps. -/
theorem normalizedClosedForm : Obligations.NormalizedClosedForm := by
  intro w word
  obtain ⟨hlow, hhigh⟩ := shiftRight_bounds (mantField_le word) (expField_le word)
  have hnorm : (decodeSerial word).norm.toNat =
      (65535 * (2 ^ (20 + expField word) + 2 * mantField word - 1023)) >>> (21 + expField word) := by
    rw [decodeSerial, normalized_vout, BitVec.ofInt_natCast, BitVec.toNat_ofNat, Nat.mod_eq_of_lt (by omega)]
  rw [hnorm]
  exact ⟨rfl, normalized_vout word _, hlow, hhigh⟩

end Sys2Proof.Machine

namespace Sys2Proof.Machine

/-! ### The binary64 ports (00_scope.md R12, 42_word_decoder.md R97, R98) -/

section Binary64

/-- The three fields of a binary64 pattern, as `value64` cuts them. -/
theorem binary64_fields (sign : Bool) (e : BitVec 11) (f : BitVec 52) :
    (BitVec.ofBool sign ++ e ++ f : BitVec 64).getLsbD 63 = sign ∧
      (BitVec.ofBool sign ++ e ++ f : BitVec 64).extractLsb' 52 11 = e ∧
      (BitVec.ofBool sign ++ e ++ f : BitVec 64).extractLsb' 0 52 = f := by
  refine ⟨?_, ?_, BitVec.extractLsb'_append_eq_right⟩
  · calc (BitVec.ofBool sign ++ e ++ f).getLsbD 63
        = (BitVec.ofBool sign ++ e).getLsbD 11 := BitVec.getLsbD_append
      _ = (BitVec.ofBool sign).getLsbD 0 := BitVec.getLsbD_append
      _ = sign := by cases sign <;> rfl
  · calc (BitVec.ofBool sign ++ e ++ f).extractLsb' 52 11
        = (BitVec.ofBool sign ++ e).extractLsb' 0 11 := BitVec.extractLsb'_append_eq_of_le (Nat.le_refl 52)
      _ = e := BitVec.extractLsb'_append_eq_right

/-- The number a pattern of a normal number stands for. -/
theorem value64_append (sign : Bool) {e : BitVec 11} (f : BitVec 52) (hpos : e.toNat ≠ 0) (hfin : e.toNat ≠ 2047) :
    value64 (BitVec.ofBool sign ++ e ++ f) =
      some (mkRat ((if sign then -1 else 1) * ((2 ^ 52 + f.toNat) * 2 ^ e.toNat : Nat)) (2 ^ 1075)) := by
  obtain ⟨hsign, he, hf⟩ := binary64_fields sign e f
  simp only [value64, hsign, he, hf, if_neg hpos, if_neg hfin]

theorem value64_zero : value64 0 = some 0 :=
  calc value64 0 = some (mkRat 0 (2 ^ 1074)) := rfl
    _ = some 0 := congrArg some (Rat.zero_mkRat _)

/-- The fraction of a number below `2^53` is its own bits behind the leading one, moved to the top. -/
theorem fraction_toNat {a : Nat} (h0 : a ≠ 0) (h53 : a < 2 ^ 53) :
    2 ^ 52 + (BitVec.ofNat 52 (a * 2 ^ 52 / 2 ^ a.log2)).toNat = a * 2 ^ (52 - a.log2) := by
  have hlog : a.log2 ≤ 52 := Nat.le_of_lt_succ ((Nat.log2_lt h0).mpr h53)
  have hquot : a * 2 ^ 52 / 2 ^ a.log2 = a * 2 ^ (52 - a.log2) := by
    rw [Nat.mul_div_assoc _ (Nat.pow_dvd_pow 2 hlog), Nat.pow_div hlog (by decide)]
  have hsplit : 2 ^ 52 = 2 ^ a.log2 * 2 ^ (52 - a.log2) := by rw [← pow_add, Nat.add_sub_cancel' hlog]
  have hlow : 2 ^ 52 ≤ a * 2 ^ (52 - a.log2) := hsplit ▸ Nat.mul_le_mul_right _ (Nat.log2_self_le h0)
  have hhigh : a * 2 ^ (52 - a.log2) < 2 * 2 ^ 52 := by
    rw [hsplit, ← mul_assoc, ← pow_succ']
    exact Nat.mul_lt_mul_of_pos_right Nat.lt_log2_self (Nat.two_pow_pos _)
  rw [hquot, BitVec.toNat_ofNat]
  omega

theorem mkRat_eq_of_mul_eq {x : Rat} {n : Int} {d : Nat} (hd : d ≠ 0) (h : n * x.den = x.num * d) :
    mkRat n d = x :=
  ((Rat.mkRat_eq_iff hd x.den_nz).mpr h).trans (Rat.mkRat_self x)

/-- The fraction, moved to the top, and the biased exponent together scale by `2^1075` over `2^k`. -/
theorem mul_two_pow_rescale {a l k : Nat} (hl : l ≤ 52) (hk : k ≤ 1022) :
    a * 2 ^ (52 - l) * 2 ^ (l + 1023 - k) * 2 ^ k = a * 2 ^ 1075 := by
  have hexp : 52 - l + (l + 1023 - k + k) = 1075 := by omega
  rw [mul_assoc, mul_assoc, ← pow_add, ← pow_add, hexp]

theorem sign_mul_natAbs (n : Int) : (if decide (n < 0) = true then -1 else 1) * (n.natAbs : Int) = n := by
  simp only [decide_eq_true_iff]
  split <;> omega

/-- A number with at most 53 bits over a power of two is encoded without rounding. -/
theorem value64_enc64 {x : Rat} {k : Nat} (hden : x.den = 2 ^ k) (hk : k ≤ 1022) (hnum : x.num.natAbs < 2 ^ 53) :
    value64 (enc64 x) = some x := by
  by_cases h0 : x.num = 0
  · rw [enc64, if_pos h0, value64_zero, Rat.num_eq_zero.mp h0]
  have ha0 : x.num.natAbs ≠ 0 := Int.natAbs_ne_zero.mpr h0
  have hlog : x.num.natAbs.log2 ≤ 52 := Nat.le_of_lt_succ ((Nat.log2_lt ha0).mpr hnum)
  have hexp : (BitVec.ofInt 11 ((x.num.natAbs.log2 : Int) - (x.den.log2 : Int) + 1023)).toNat =
      x.num.natAbs.log2 + 1023 - k := by
    rw [hden, Nat.log2_two_pow, BitVec.toNat_ofInt]
    omega
  rw [enc64, if_neg h0, value64_append _ _ (by omega) (by omega), fraction_toNat ha0 hnum, hexp]
  refine congrArg some (mkRat_eq_of_mul_eq (pow_ne_zero _ two_ne_zero) ?_)
  rw [mul_assoc, ← Nat.cast_mul, hden, mul_two_pow_rescale hlog hk, Nat.cast_mul, ← mul_assoc, sign_mul_natAbs]

/-- The same for a number given over a power of two, in lowest terms or not. -/
theorem value64_enc64_div {n : Int} {k : Nat} (hk : k ≤ 1022) (hn : n.natAbs < 2 ^ 53) :
    value64 (enc64 ((n : Rat) / (2 ^ k : Nat))) = some ((n : Rat) / (2 ^ k : Nat)) := by
  have hfrac : (n : Rat) / (2 ^ k : Nat) = Rat.divInt n (2 ^ k : Nat) := by
    rw [Rat.divInt_eq_div, Int.cast_natCast]
  have hnum : (Rat.divInt n (2 ^ k : Nat)).num ∣ n := Rat.num_dvd n (by positivity)
  obtain ⟨j, hj, hdenj⟩ :=
    (Nat.dvd_prime_pow Nat.prime_two).mp (Int.natCast_dvd_natCast.mp (Rat.den_dvd n (2 ^ k : Nat)))
  rw [hfrac]
  refine value64_enc64 hdenj (hj.trans hk) ?_
  by_cases h0 : n = 0
  · simp [h0]
  · exact (Nat.le_of_dvd (Int.natAbs_pos.mpr h0) (Int.natAbs_dvd_natAbs.mpr hnum)).trans_lt hn

end Binary64

section FloatPorts

variable {w : Nat} (word : List (SerialBit w))

/-- `mantissa` has 11 bits over `2^10`. -/
theorem value64_enc64_mantissa : value64 (enc64 (mantissa word)) = some (mantissa word) := by
  have hform : mantissa word = ((2 * (mantField word : Int) - 1023 : Int) : Rat) / (2 ^ 10 : Nat) := by
    rw [mantissa_eq]
    norm_num
  have hle := mantField_le word
  rw [hform, value64_enc64_div (by decide) (by omega)]

theorem value64_enc64_expField : value64 (enc64 (expField word)) = some (expField word : Rat) := by
  have hform : (expField word : Rat) = ((expField word : Int) : Rat) / (2 ^ 0 : Nat) := by simp
  have hle := expField_le word
  rw [hform, value64_enc64_div (by decide) (by omega)]

/-- `vout` is `5 (2^(21+E) + 2M - 1023)` over `2^(22+E)`. -/
theorem value64_enc64_vout :
    value64 (enc64 (vout (mantissa word) (expField word))) = some (vout (mantissa word) (expField word)) := by
  have hform : vout (mantissa word) (expField word) =
      ((5 * ((2 ^ (21 + expField word) : Nat) + 2 * (mantField word : Int) - 1023) : Int) : Rat) /
        (2 ^ (22 + expField word) : Nat) := by
    rw [vout_eq, Nat.succ_add 21, pow_succ]
    push_cast
    field_simp
    ring
  have hmant := mantField_le word
  have hexp := expField_le word
  have hpow : 2 ^ (21 + expField word) ≤ 2 ^ 28 := Nat.pow_le_pow_right (by decide) (by omega)
  have hpos := Nat.two_pow_pos (21 + expField word)
  rw [hform, value64_enc64_div (by omega) (by omega)]

end FloatPorts

/-- Settles O40: every number the ports carry is a short integer over a power of two, which `enc64` does not
round. -/
theorem floatPortsAreExact : Obligations.FloatPortsAreExact :=
  fun _ word => ⟨value64_enc64_mantissa word, value64_enc64_expField word, value64_enc64_vout word⟩

/-- Settles O42: three written-out words, each decoded by evaluation (95_test_vectors.md section 2.4). -/
theorem sourceExamplesDecode : Obligations.SourceExamplesDecode := by
  unfold Obligations.SourceExamplesDecode
  decide +kernel

end Sys2Proof.Machine

namespace Sys2Proof.Machine

/-! ### A session by its rising edges (41_shift_register.md R82 to R86) -/

section Accepted

variable {cs cs' : List Instr}

/-- END closes the session to every later sample. -/
theorem accepted_append_of_ended (h : .endStream ∈ cs) : accepted (cs ++ cs') = accepted cs := by
  induction cs with
  | nil => exact absurd h List.not_mem_nil
  | cons c cs ih =>
    cases c with
    | reset => rfl
    | endStream => rfl
    | idle => exact ih (by simpa using h)
    | sample c d l i => exact congrArg (_ :: ·) (ih (by simpa using h))

theorem accepted_append (hreset : .reset ∉ cs) (hend : .endStream ∉ cs) :
    accepted (cs ++ cs') = accepted cs ++ accepted cs' := by
  induction cs with
  | nil => rfl
  | cons c cs ih =>
    have ih := ih (List.not_mem_of_not_mem_cons hreset) (List.not_mem_of_not_mem_cons hend)
    cases c with
    | reset => exact absurd List.mem_cons_self hreset
    | endStream => exact absurd List.mem_cons_self hend
    | idle => exact ih
    | sample c d l i => exact congrArg (_ :: ·) ih

end Accepted

section Edges

variable {w : Nat}

/-- The newest sample adds an edge if its clock has risen from the sample before it, or from the level before the
stream. -/
theorem edges_append_singleton (before : Option Bool) (xs : List (Sample w)) (x : Sample w) :
    edges before (xs ++ [x]) =
      edges before xs ++
        if ((xs.getLast?.map Sample.clock).or before = some false ∧ x.clock = true) then [x] else [] := by
  induction xs generalizing before with
  | nil => rfl
  | cons y ys ih =>
    have hlast : ((y :: ys).getLast?.map Sample.clock).or before =
        (ys.getLast?.map Sample.clock).or (some y.clock) := by
      rw [List.getLast?_cons]
      cases ys.getLast? <;> rfl
    rw [List.cons_append, edges, edges, ih (some y.clock), hlast]
    split <;> rfl

variable (es : List (Sample w)) (e : Sample w)

/-- Later edges change nothing of what an edge has emitted. -/
theorem edgeEvents_append_of_lt {k : Nat} (hk : k < es.length) : edgeEvents (es ++ [e]) k = edgeEvents es k := by
  have hword (h12 : 12 ≤ k) : (((es ++ [e]).map Sample.bit).drop (k - 12)).take 13 =
      ((es.map Sample.bit).drop (k - 12)).take 13 := by
    rw [List.map_append, List.drop_append_of_le_length (by simp; omega), List.take_append_of_le_length (by simp; omega)]
  unfold edgeEvents
  rw [List.getElem?_append_left (by omega), List.getElem?_append_left hk]
  rcases Nat.lt_or_ge k 12 with h12 | h12
  · simp only [if_pos h12]
  · simp only [hword h12]

theorem sessionEvents_append_singleton :
    sessionEvents (es ++ [e]) = sessionEvents es ++ edgeEvents (es ++ [e]) es.length := by
  rw [sessionEvents, sessionEvents, List.length_append, List.length_singleton, List.range_succ, List.flatMap_append,
    List.flatMap_singleton]
  refine congrArg (· ++ _) (List.flatMap_congr fun k hk => ?_)
  exact edgeEvents_append_of_lt es e (List.mem_range.mp hk)

/-- The last 13 entries of a history of bits: what the register holds of it (41_shift_register.md R84). -/
def newest13 (bits : List (SerialBit w)) : List (SerialBit w) := bits.drop (bits.length - 13)

theorem newest13_length (bits : List (SerialBit w)) : (newest13 bits).length = min bits.length 13 := by
  rw [newest13, List.length_drop]
  omega

theorem appendRegister_newest13 (bits : List (SerialBit w)) (d : Bool) (i : BitVec w) :
    appendRegister (newest13 bits) d i = newest13 (bits ++ [edgeBit d i]) := by
  have hlen := newest13_length bits
  rcases Nat.lt_or_ge bits.length 13 with h | h
  · rw [appendRegister_of_length_le d i (by omega), newest13, newest13, List.length_append, List.length_singleton,
      Nat.sub_eq_zero_of_le h.le, Nat.sub_eq_zero_of_le h]
    rfl
  · rw [appendRegister_of_le_length d i (by omega), newest13, newest13, List.length_append, List.length_singleton,
      List.tail_drop, ← Nat.sub_add_comm h, List.drop_append_of_le_length (by omega)]

/-- The word an Append takes from the newest 13 bits is the 12 newest of the whole history and the new one. -/
theorem window_newest13 (bits : List (SerialBit w)) (d : Bool) (i : BitVec w) (h : 12 ≤ bits.length) :
    window (newest13 bits ++ [edgeBit d i]) = bits.drop (bits.length - 12) ++ [edgeBit d i] := by
  rw [window_append_edgeBit, newest13_length, newest13, List.drop_drop]
  congr 2
  omega

theorem edgeEvents_of_lt_twelve {k : Nat} (hk : k < 12) : edgeEvents es k = [] := by
  unfold edgeEvents
  split
  · rw [if_pos hk]
  · rfl

theorem take_thirteen_drop_append (bits : List (SerialBit w)) (b : SerialBit w) (h : 12 ≤ bits.length) :
    ((bits ++ [b]).drop (bits.length - 12)).take 13 = bits.drop (bits.length - 12) ++ [b] := by
  rw [List.drop_append_of_le_length (Nat.sub_le ..), List.take_of_length_le]
  simp [Nat.sub_sub_self h]

/-- What the next edge of a session emits is what an Append to its newest 13 bits emits (R85). -/
theorem edgeEvents_append_length :
    edgeEvents (es ++ [e]) es.length =
      appendEvents (newest13 (es.map Sample.bit)) ((es.getLast?.map Sample.load).getD false) e.data e.load
        e.index := by
  have hlen := newest13_length (es.map Sample.bit)
  rw [List.length_map] at hlen
  rcases Nat.lt_or_ge es.length 12 with h12 | h12
  · rw [edgeEvents_of_lt_twelve _ h12]
    rcases appendEvents_cases (newest13 (es.map Sample.bit)) ((es.getLast?.map Sample.load).getD false) e.data e.load
      e.index with ⟨-, h⟩ | ⟨h, -⟩ | ⟨h, -⟩
    · exact h.symm
    · omega
    · omega
  · have hlast : es.getLast? = some es[es.length - 1] := by
      rw [List.getLast?_eq_getElem?, List.getElem?_eq_getElem]
    have hprevious : (es ++ [e])[es.length - 1]? = some es[es.length - 1] := by
      rw [List.getElem?_append_left (by omega), List.getElem?_eq_getElem]
    have hword : (((es ++ [e]).map Sample.bit).drop (es.length - 12)).take 13 =
        window (newest13 (es.map Sample.bit) ++ [edgeBit e.data e.index]) := by
      rw [window_newest13 _ _ _ (by rwa [List.length_map]), List.map_append, List.length_map]
      have htake := take_thirteen_drop_append (es.map Sample.bit) e.bit (by rwa [List.length_map])
      rwa [List.length_map] at htake
    simp only [edgeEvents, hprevious, List.getElem?_concat_length, if_neg (Nat.not_lt.mpr h12), hword, hlast,
      Option.map_some, Option.getD_some]
    have hgate : 12 ≤ (newest13 (es.map Sample.bit)).length := by omega
    simp [appendEvents, fullGate, loadFalls, hgate, Sample.bit, edgeBit]

end Edges

/-- The abstract state of a session that has taken the samples `xs` since its RESET, by its rising edges. -/
def Abs.ofSamples (xs : List (Sample Config.idxW)) (ended : Bool) : Abs :=
  { hist := xs.getLast?.map Sample.clock
    sr := newest13 ((edges none xs).map Sample.bit)
    lastLoad := ((edges none xs).getLast?.map Sample.load).getD false
    bitsSeen := BitVec.ofNat Config.cntW (edges none xs).length
    ended := ended }

/-- One more sample of a running session, and the events by which the session's list grows. -/
theorem Abs.step_ofSamples (xs : List (Sample Config.idxW)) (x : Sample Config.idxW) :
    ∃ evs, (Abs.ofSamples xs false).step (.sample x.clock x.data x.load x.index) =
        (Abs.ofSamples (xs ++ [x]) false, evs) ∧
      sessionEvents (edges none (xs ++ [x])) = sessionEvents (edges none xs) ++ evs := by
  rw [edges_append_singleton, Option.or_none]
  by_cases hedge : xs.getLast?.map Sample.clock = some false ∧ x.clock = true
  · have hedges : edges none (xs ++ [x]) = edges none xs ++ [x] := by
      rw [edges_append_singleton, Option.or_none, if_pos hedge]
    rw [if_pos hedge, sessionEvents_append_singleton, edgeEvents_append_length, hedge.2,
      Abs.step_sample_of_edge rfl hedge.1, Abs.append_eq]
    refine ⟨_, Prod.ext ?_ rfl, rfl⟩
    simp [Abs.ofSamples, hedges, hedge.2, appendRegister_newest13, countBit, BitVec.ofNat_add, Sample.bit, edgeBit]
  · have hedges : edges none (xs ++ [x]) = edges none xs := by
      rw [edges_append_singleton, Option.or_none, if_neg hedge, List.append_nil]
    rw [if_neg hedge, List.append_nil, Abs.step_sample_of_not_edge rfl hedge]
    refine ⟨[], Prod.ext ?_ rfl, (List.append_nil _).symm⟩
    simp [Abs.ofSamples, hedges]

/-- A session without another RESET leaves and emits what its accepted samples say. -/
theorem Abs.fresh_run {cs : List Instr} (hreset : .reset ∉ cs) :
    Abs.fresh.run cs =
      (Abs.ofSamples (accepted cs) (decide (.endStream ∈ cs)), sessionEvents (edges none (accepted cs))) := by
  induction cs using List.reverseRecOn with
  | nil => rfl
  | append_singleton cs c ih =>
    obtain ⟨hreset, hc⟩ : .reset ∉ cs ∧ .reset ≠ c := by simpa using hreset
    rw [Abs.run_append, ih hreset, Abs.run_singleton]
    by_cases hend : .endStream ∈ cs
    · rw [accepted_append_of_ended hend, decide_eq_true hend, decide_eq_true (List.mem_append_left _ hend)]
      cases c with
      | reset => exact absurd rfl hc
      | endStream => exact Prod.ext rfl (List.append_nil _)
      | idle => exact Prod.ext rfl (List.append_nil _)
      | sample c d l i =>
        rw [Abs.step_sample_of_ended rfl]
        exact Prod.ext rfl (List.append_nil _)
    · rw [accepted_append hreset hend, decide_eq_false hend]
      cases c with
      | reset => exact absurd rfl hc
      | endStream =>
        rw [decide_eq_true (List.mem_append_right _ List.mem_cons_self)]
        simp [accepted, Abs.step, Abs.ofSamples]
      | idle => simp [accepted, Abs.step, hend]
      | sample c d l i =>
        obtain ⟨evs, hstep, hevents⟩ := Abs.step_ofSamples (accepted cs) ⟨c, d, l, i⟩
        have hmem : ¬ Instr.endStream ∈ cs ++ [.sample c d l i] := by simp [hend]
        rw [decide_eq_false hmem, hstep]
        exact Prod.ext rfl hevents.symm

/-- Before the first sample of a session the clock register is 0. -/
def State.ClockLowBeforeFirstSample (s : State) : Prop := s.prevValid = false → s.prevClk = false

theorem State.ClockLowBeforeFirstSample.after {s : State} (h : s.ClockLowBeforeFirstSample) (c : Instr) :
    (s.after c).ClockLowBeforeFirstSample := by
  unfold State.after ClockLowBeforeFirstSample
  rcases commandAt_reset_or_silent_or_append c.command s.toStateOf with
    ⟨-, he⟩ | ⟨-, u, hu, he⟩ | ⟨d, l, x, -, -, -, -, he⟩ <;> rw [he]
  · exact fun _ => rfl
  · intro hvalid
    obtain ⟨hvalid', hclk⟩ := hu.clock hvalid
    exact hclk.trans (h hvalid')
  · nofun

theorem State.ClockLowBeforeFirstSample.afterAll {s : State} (h : s.ClockLowBeforeFirstSample) (cs : List Instr) :
    (s.afterAll cs).ClockLowBeforeFirstSample := by
  induction cs generalizing s with
  | nil => exact h
  | cons c cs ih => exact ih (h.after c)

/-- With the clock register 0 before the first sample, `hist` determines both of the edge sampler's registers. -/
theorem clock_registers_of_hist {s : State} (h : s.ClockLowBeforeFirstSample) :
    s.prevValid = (absOf s).hist.isSome ∧ s.prevClk = (absOf s).hist.getD false := by
  cases hvalid : s.prevValid with
  | false => exact ⟨by simp [absOf, hvalid], by simp [absOf, hvalid, h hvalid]⟩
  | true => exact ⟨by simp [absOf, hvalid], by simp [absOf, hvalid]⟩

/-- Settles O47: the abstract run from the fresh state is the session of the accepted samples. -/
theorem sessionFollowsItsRisingEdges : Obligations.SessionFollowsItsRisingEdges := by
  intro s cs hreset
  obtain ⟨hstate, hevents⟩ := absOf_afterAll s (.reset :: cs)
  rw [Abs.run_reset, Abs.fresh_run hreset] at hstate hevents
  have hlow : (s.after .reset).ClockLowBeforeFirstSample := fun _ => rfl
  obtain ⟨hvalid, hclk⟩ := clock_registers_of_hist (hlow.afterAll cs)
  have hhist : (absOf (s.afterAll (.reset :: cs))).hist = (accepted cs).getLast?.map Sample.clock :=
    congrArg Abs.hist hstate
  refine ⟨_, run_presenting s (.reset :: cs), ?_, congrArg Abs.bitsSeen hstate, congrArg Abs.lastLoad hstate, ?_, ?_,
    congrArg Abs.ended hstate, hevents⟩
  · have hsr := congrArg Abs.sr hstate
    rwa [Abs.ofSamples, newest13, List.length_map] at hsr
  · refine hvalid.trans ((congrArg Option.isSome hhist).trans ?_)
    rw [Option.isSome_map]
    cases accepted cs <;> simp
  · exact hclk.trans (congrArg (Option.getD · false) hhist)

end Sys2Proof.Machine

namespace Sys2Proof.Machine

/-! ### A sent word (30_encoding.md R60) -/

theorem suffix_appendRegister {w : Nat} {bits sr : List (SerialBit w)} (h : bits <:+ sr) (hlen : bits.length ≤ 12)
    (d : Bool) (i : BitVec w) : bits ++ [edgeBit d i] <:+ appendRegister sr d i := by
  obtain ⟨older, rfl⟩ := h
  rcases appendRegister_cases (older ++ bits) d i with ⟨-, hsr⟩ | ⟨hfull, hsr⟩ <;> rw [hsr]
  · exact ⟨older, by simp⟩
  · have hne : older ≠ [] := by
      rintro rfl
      rw [List.nil_append] at hfull
      omega
    exact ⟨older.tail, by rw [List.tail_append_of_ne_nil hne, List.append_assoc]⟩

/-- `BIT` is one rising edge of a running session, whatever the clock was before it. -/
theorem Abs.run_bitCommands {a : Abs} (h : a.ended = false) (d l : Bool) (i : BitVec Config.idxW) :
    a.run (bitCommands d l i) = { a with hist := some true }.append d l (i + 1) := by
  have hlow : a.step (.sample false d l i) = ({ a with hist := some false }, []) :=
    Abs.step_sample_of_not_edge h (by simp) d l i
  have hhigh : ({ a with hist := some false } : Abs).step (.sample true d l (i + 1)) =
      { a with hist := some true }.append d l (i + 1) :=
    Abs.step_sample_of_edge (a := { a with hist := some false }) h rfl d l (i + 1)
  rw [bitCommands, Abs.run, Abs.run_singleton, hlow, hhigh, List.nil_append]

/-- A running session that has received the levels `bits` with the load level 1: they are its newest entries. -/
structure Abs.Receiving (bits : List (SerialBit Config.idxW)) (a : Abs) : Prop where
  running : a.ended = false
  newest : bits <:+ a.sr
  load : bits ≠ [] → a.lastLoad = true

/-- A level sent with the load level 1 is received, and emits no word. -/
theorem Abs.Receiving.bit {bits : List (SerialBit Config.idxW)} {a : Abs} (h : a.Receiving bits)
    (hlen : bits.length ≤ 12) (d : Bool) (i : BitVec Config.idxW) :
    (a.run (bitCommands d true i)).1.Receiving (bits ++ [edgeBit d (i + 1)]) ∧
      ∀ e ∈ (a.run (bitCommands d true i)).2, ∃ b, e = .bitEv b := by
  rw [Abs.run_bitCommands h.running, Abs.append_eq]
  refine ⟨⟨h.running, suffix_appendRegister h.newest hlen d (i + 1), fun _ => rfl⟩, ?_⟩
  rcases appendEvents_cases a.sr a.lastLoad d true (i + 1) with ⟨-, he⟩ | ⟨-, -, he⟩ | ⟨-, -, hl, -⟩
  · rw [he]
    nofun
  · rw [he]
    exact List.forall_mem_singleton.mpr ⟨_, rfl⟩
  · exact absurd hl.symm Bool.false_ne_true

/-- The levels `bs`, each at its index, sent one after the other with the load level 1. -/
def highLoadCommands (bs : List (Bool × BitVec Config.idxW)) : List Instr :=
  bs.flatMap fun b => bitCommands b.1 true b.2

theorem Abs.Receiving.bits {bits : List (SerialBit Config.idxW)} {a : Abs} (h : a.Receiving bits)
    (bs : List (Bool × BitVec Config.idxW)) (hlen : bits.length + bs.length ≤ 13) :
    (a.run (highLoadCommands bs)).1.Receiving (bits ++ bs.map fun b => edgeBit b.1 (b.2 + 1)) ∧
      ∀ e ∈ (a.run (highLoadCommands bs)).2, ∃ b, e = .bitEv b := by
  induction bs generalizing bits a with
  | nil => exact ⟨by simpa [highLoadCommands, Abs.run] using h, nofun⟩
  | cons b bs ih =>
    rw [List.length_cons] at hlen
    obtain ⟨hbit, hevents⟩ := h.bit (by omega) b.1 b.2
    obtain ⟨hbits, hevents'⟩ := ih hbit (by rw [List.length_append, List.length_singleton]; omega)
    rw [highLoadCommands, List.flatMap_cons, ← highLoadCommands, Abs.run_append]
    refine ⟨by simpa using hbits, fun e he => ?_⟩
    exact (List.mem_append.mp he).elim (hevents e) (hevents' e)

/-- The 13th level, sent with the load level 0, completes the word, which is emitted before its last bit. -/
theorem Abs.Receiving.lastBit {bits : List (SerialBit Config.idxW)} {a : Abs} (h : a.Receiving bits)
    (hlen : bits.length = 12) (d : Bool) (i : BitVec Config.idxW) :
    bits ++ [edgeBit d (i + 1)] <:+ (a.run (bitCommands d false i)).1.sr ∧
      (a.run (bitCommands d false i)).1.lastLoad = false ∧
      (a.run (bitCommands d false i)).2 =
        [.wordEv (decodeSerial (bits ++ [edgeBit d (i + 1)])), .bitEv (edgeBit d (i + 1))] := by
  have hload : a.lastLoad = true := h.load (List.ne_nil_of_length_eq_add_one hlen)
  have hword : a.sr.drop (a.sr.length - 12) = bits := hlen ▸ (List.suffix_iff_eq_drop.mp h.newest).symm
  rw [Abs.run_bitCommands h.running, Abs.append_eq]
  refine ⟨suffix_appendRegister h.newest hlen.le d (i + 1), rfl, ?_⟩
  rcases appendEvents_cases a.sr a.lastLoad d false (i + 1) with ⟨hfew, -⟩ | ⟨-, hfall, -⟩ | ⟨-, -, -, he⟩
  · have hle := h.newest.length_le
    omega
  · exact absurd ⟨hload, rfl⟩ hfall
  · rw [← hword, ← window_append_edgeBit]
    exact he

section WordCommands

variable {levels : List Bool} {i : BitVec Config.idxW}

/-- The levels with the index at which `WORD` sends each one's first sample. -/
def timedLevels (levels : List Bool) (i : BitVec Config.idxW) : List (Bool × BitVec Config.idxW) :=
  levels.zipIdx.map fun (d, p) => (d, i + BitVec.ofNat Config.idxW (2 * p))

theorem timedLevels_length : (timedLevels levels i).length = levels.length := by
  rw [timedLevels, List.length_map, List.length_zipIdx]

/-- `WORD` is 12 levels with the load level 1 and a 13th with 0. -/
theorem wordCommands_append_singleton (hlen : levels.length = 12) (d : Bool) :
    wordCommands (levels ++ [d]) i = highLoadCommands (timedLevels levels i) ++ bitCommands d false (i + 24) := by
  rw [wordCommands, List.zipIdx_append, List.flatMap_append, highLoadCommands, timedLevels, List.flatMap_map, hlen]
  refine congrArg₂ (· ++ ·) (List.flatMap_congr ?_) rfl
  rintro ⟨b, p⟩ hmem
  have hp : p < 12 := by simpa [hlen] using List.snd_lt_of_mem_zipIdx hmem
  exact congrArg (bitCommands b · _) (decide_eq_true hp.ne)

theorem sentWord_append_singleton (hlen : levels.length = 12) (d : Bool) :
    sentWord (levels ++ [d]) i =
      ((timedLevels levels i).map fun b => edgeBit b.1 (b.2 + 1)) ++ [edgeBit d (i + 24 + 1)] := by
  have hindex (p : Nat) : i + BitVec.ofNat Config.idxW (2 * p + 1) = i + BitVec.ofNat Config.idxW (2 * p) + 1 := by
    rw [BitVec.ofNat_add, BitVec.add_assoc]
    rfl
  rw [sentWord, List.zipIdx_append, List.map_append, timedLevels, List.map_map, hlen]
  refine congrArg₂ (· ++ ·) (List.map_congr_left fun x _ => ?_) ?_
  · exact congrArg (edgeBit x.1) (hindex x.2)
  · exact congrArg (fun j => [edgeBit d j]) (hindex 12)

theorem sentWord_length : (sentWord levels i).length = levels.length := by
  rw [sentWord, List.length_map, List.length_zipIdx]

theorem entryAt_sentWord {p : Nat} (hp : p < levels.length) :
    entryAt (sentWord levels i) p = edgeBit levels[p] (i + BitVec.ofNat Config.idxW (2 * p + 1)) := by
  rw [entryAt_eq_getElem (by rwa [sentWord_length])]
  simp [sentWord]

theorem wordCommands_length : (wordCommands levels i).length = 2 * levels.length := by
  simp [wordCommands, bitCommands, List.length_flatMap, mul_comm]

end WordCommands

/-- What a sent word leaves and emits, on the abstract state of a running session. -/
theorem Abs.run_wordCommands {a : Abs} (hended : a.ended = false) {levels : List Bool} (hlen : levels.length = 12)
    (d : Bool) (i : BitVec Config.idxW) :
    sentWord (levels ++ [d]) i <:+ (a.run (wordCommands (levels ++ [d]) i)).1.sr ∧
      (a.run (wordCommands (levels ++ [d]) i)).1.lastLoad = false ∧
      ∃ before, (∀ e ∈ before, ∃ b, e = .bitEv b) ∧
        (a.run (wordCommands (levels ++ [d]) i)).2 =
          before ++ [.wordEv (decodeSerial (sentWord (levels ++ [d]) i)), .bitEv (edgeBit d (i + 24 + 1))] := by
  have hstart : a.Receiving [] := ⟨hended, List.nil_suffix, nofun⟩
  have htimed : (timedLevels levels i).length = 12 := timedLevels_length.trans hlen
  obtain ⟨hreceived, hbefore⟩ := hstart.bits (timedLevels levels i) (by rw [htimed]; decide)
  obtain ⟨hsr, hload, hevents⟩ :=
    hreceived.lastBit (by rw [List.nil_append, List.length_map, htimed]) d (i + 24)
  rw [List.nil_append, ← sentWord_append_singleton hlen] at hsr hevents
  rw [wordCommands_append_singleton hlen, Abs.run_append, hevents]
  exact ⟨hsr, hload, _, hbefore, rfl⟩

theorem State.Inv.afterAll {s : State} (h : s.Inv) (cs : List Instr) : (s.afterAll cs).Inv := by
  induction cs generalizing s with
  | nil => exact h
  | cons c cs ih => exact ih (h.after c)

/-- Settles O48: 12 levels are received, and the 13th completes the word; with at most 13 entries the register
then holds nothing else. -/
theorem sentWordIsDecoded : Obligations.SentWordIsDecoded := by
  intro s levels i hended hlen
  obtain ⟨init, d, rfl⟩ := (List.eq_nil_or_concat' levels).resolve_left (List.ne_nil_of_length_eq_add_one hlen)
  have hinit : init.length = 12 := by simpa using hlen
  obtain ⟨hstate, hevents⟩ := absOf_afterAll s (wordCommands (init ++ [d]) i)
  obtain ⟨hsr, hload, before, hbefore, hword⟩ := Abs.run_wordCommands (a := absOf s) hended hinit d i
  have hcount : (wordCommands (init ++ [d]) i).length = 26 := by rw [wordCommands_length, hlen]
  have hentry {p : Nat} (hp : p < 13) := entryAt_sentWord (levels := init ++ [d]) (i := i) (hp.trans_eq hlen.symm)
  refine ⟨_, before, _, edgeBit d (i + 24 + 1), hcount ▸ run_presenting s (wordCommands (init ++ [d]) i), ?_, hbefore,
    rfl, fun p hp => ?_, ?_, ?_, ?_, ?_, fun hinv => ?_, ?_⟩
  · rw [List.append_assoc, ← hword]
    exact hevents
  · rw [wordBits_getLsbD _ hp, bitAt, hentry hp, List.getElem?_eq_getElem (hp.trans_eq hlen.symm), edgeBit]
  · rw [List.getElem?_append_right (by omega), hinit]
    rfl
  · rw [BitVec.add_assoc]
    rfl
  · exact congrArg SerialBit.start (hentry (by decide))
  · exact congrArg SerialBit.stop (hentry (by decide))
  · have hle := (hinv.afterAll (wordCommands (init ++ [d]) i)).length_le
    rw [← congrArg Abs.sr hstate] at hsr
    exact (hsr.eq_of_length_le (by rw [sentWord_length, hlen]; exact hle)).symm
  · exact (congrArg Abs.lastLoad hstate).trans hload

end Sys2Proof.Machine
